-- ==== Sys2Proof/Word.lean ====
section
/-!
DEFINITION. The widths of the hardware's values (spec/00_scope.md rules R5 and R7). Every value is unsigned.
-/

namespace Sys2Proof

/-- A byte: a general register, a timer, a memory cell, the immediate `kk` (R5, R53). -/
abbrev Byte := BitVec 8

/-- A 16-bit value: the instruction word, `pc`, `I`, a stack entry (R5, R7). -/
abbrev Word := BitVec 16

/-- A 4-bit field of the instruction word: `x`, `y`, `n` (R51, R52). A register index is always one of these. -/
abbrev Nibble := BitVec 4

/-- The 12-bit immediate address `nnn` (R51, R53). -/
abbrev Addr12 := BitVec 12

end Sys2Proof
end

