-- ==== Sys2Proof/Syntax.lean ====
section
/-!
DEFINITION. The instructions: one constructor per row of spec/opcode_table.json, in the table's order
(spec/30_encoding.md rules R54, R56, R62). Each constructor carries every bit of its word that the row does not fix:
the operands the spec names and, under the names `ign…`, the bits decode does not examine (R57). The `ign…` bits are
no operands: a meaning uses them for nothing but the opcode latch, which holds the fetched word whole (R21).
-/

namespace Sys2Proof

/-- An instruction of the CORE block. -/
inductive Instr where
  /-- `00E0`: clear the framebuffer (R115); `ign` is bits 11 to 4 -/
  | cls (ign : Byte)
  /-- `00EE`: return from subroutine (R81); `ign` is bits 11 to 4 -/
  | ret (ign : Byte)
  /-- `1nnn`: absolute jump (R82) -/
  | jp (nnn : Addr12)
  /-- `2nnn`: call subroutine (R83) -/
  | call (nnn : Addr12)
  /-- `3xkk`: skip if equal to immediate (R84) -/
  | seVxKk (x : Nibble) (kk : Byte)
  /-- `4xkk`: skip if not equal to immediate (R85) -/
  | sneVxKk (x : Nibble) (kk : Byte)
  /-- `5xy0`: skip if registers equal (R86); `ign` is bits 3 to 0 -/
  | seVxVy (x y : Nibble) (ign : Nibble)
  /-- `6xkk`: load immediate (R91) -/
  | ldVxKk (x : Nibble) (kk : Byte)
  /-- `7xkk`: add immediate, no flag (R92) -/
  | addVxKk (x : Nibble) (kk : Byte)
  /-- `8xy0`: copy register (R93) -/
  | ldVxVy (x y : Nibble)
  /-- `8xy1`: bitwise or (R94) -/
  | or (x y : Nibble)
  /-- `8xy2`: bitwise and (R95) -/
  | and (x y : Nibble)
  /-- `8xy3`: bitwise exclusive or (R96) -/
  | xor (x y : Nibble)
  /-- `8xy4`: add, `VF` the carry (R97) -/
  | addVxVy (x y : Nibble)
  /-- `8xy5`: subtract, `VF` the strict comparison (R98) -/
  | sub (x y : Nibble)
  /-- `8xy6`: shift right in place (R99); `y` is decoded and not used -/
  | shr (x y : Nibble)
  /-- `8xy7`: reverse subtract (R100) -/
  | subn (x y : Nibble)
  /-- `8xyE`: shift left in place (R101); `y` is decoded and not used -/
  | shl (x y : Nibble)
  /-- `9xy0`: skip if registers differ (R87); `ign` is bits 3 to 0 -/
  | sneVxVy (x y : Nibble) (ign : Nibble)
  /-- `Annn`: load the index register (R106) -/
  | ldINnn (nnn : Addr12)
  /-- `Bnnn`: jump to `nnn` plus `V[0]` (R88) -/
  | jpV0 (nnn : Addr12)
  /-- `Cxkk`: random byte and mask (R103) -/
  | rnd (x : Nibble) (kk : Byte)
  /-- `Dxyn`: draw a sprite of `n` rows (R116) -/
  | drw (x y n : Nibble)
  /-- `Ex9E`: skip if the key is pressed (R120); `ign` is bits 7 to 4 -/
  | skp (x : Nibble) (ign : Nibble)
  /-- `ExA1`: skip if the key is not pressed (R121); `ign` is bits 7 to 4 -/
  | sknp (x : Nibble) (ign : Nibble)
  /-- `Fx07`: read the delay timer (R123) -/
  | ldVxDt (x : Nibble)
  /-- `Fx0A`: wait for a key (R122) -/
  | ldVxK (x : Nibble)
  /-- `Fx15`: set the delay timer (R124) -/
  | ldDtVx (x : Nibble)
  /-- `Fx18`: set the sound timer (R125) -/
  | ldStVx (x : Nibble)
  /-- `Fx1E`: add to the index register (R107) -/
  | addIVx (x : Nibble)
  /-- `Fx29`: point the index register at a glyph (R108) -/
  | ldFVx (x : Nibble)
  /-- `Fx33`: store three decimal digits (R109) -/
  | ldBVx (x : Nibble)
  /-- `Fx55`: store `V[0]` to `V[x]` (R110) -/
  | ldImemVx (x : Nibble)
  /-- `Fx65`: load `V[0]` to `V[x]` (R111) -/
  | ldVxImem (x : Nibble)
  /-- the no-op words of family 0 (R58, R76): low nibble `sel` not registered; `ign` is bits 11 to 4 -/
  | nopS4 (ign : Byte) (sel : Nibble)
  /-- the no-op words of family 8 (R58, R76, R102): low nibble `sel` not registered; `x`, `y` unused -/
  | nopXys (x y : Nibble) (sel : Nibble)
  /-- the no-op words of family E (R58, R76): low nibble `sel` not registered; `x` unused, `ign` is bits 7 to 4 -/
  | nopXs4 (x : Nibble) (ign : Nibble) (sel : Nibble)
  /-- the no-op words of family F (R58, R76): low byte `sel` not registered; `x` unused -/
  | nopXs8 (x : Nibble) (sel : Byte)
  deriving DecidableEq, Repr

/-- The 35 outcomes of the dispatch (R2, R55): the 34 catalogued operations and the no-op. -/
inductive Op where
  | cls | ret | jp | call | seVxKk | sneVxKk | seVxVy | ldVxKk | addVxKk | ldVxVy | or | and | xor | addVxVy | sub
  | shr | subn | shl | sneVxVy | ldINnn | jpV0 | rnd | drw | skp | sknp | ldVxDt | ldVxK | ldDtVx | ldStVx | addIVx
  | ldFVx | ldBVx | ldImemVx | ldVxImem | nop
  deriving DecidableEq, Repr

/-- The operation an instruction is: which of the 35 outcomes its word selects. -/
def Instr.op : Instr → Op
  | .cls _ => .cls
  | .ret _ => .ret
  | .jp _ => .jp
  | .call _ => .call
  | .seVxKk _ _ => .seVxKk
  | .sneVxKk _ _ => .sneVxKk
  | .seVxVy _ _ _ => .seVxVy
  | .ldVxKk _ _ => .ldVxKk
  | .addVxKk _ _ => .addVxKk
  | .ldVxVy _ _ => .ldVxVy
  | .or _ _ => .or
  | .and _ _ => .and
  | .xor _ _ => .xor
  | .addVxVy _ _ => .addVxVy
  | .sub _ _ => .sub
  | .shr _ _ => .shr
  | .subn _ _ => .subn
  | .shl _ _ => .shl
  | .sneVxVy _ _ _ => .sneVxVy
  | .ldINnn _ => .ldINnn
  | .jpV0 _ => .jpV0
  | .rnd _ _ => .rnd
  | .drw _ _ _ => .drw
  | .skp _ _ => .skp
  | .sknp _ _ => .sknp
  | .ldVxDt _ => .ldVxDt
  | .ldVxK _ => .ldVxK
  | .ldDtVx _ => .ldDtVx
  | .ldStVx _ => .ldStVx
  | .addIVx _ => .addIVx
  | .ldFVx _ => .ldFVx
  | .ldBVx _ => .ldBVx
  | .ldImemVx _ => .ldImemVx
  | .ldVxImem _ => .ldVxImem
  | .nopS4 _ _ => .nop
  | .nopXys _ _ _ => .nop
  | .nopXs4 _ _ _ => .nop
  | .nopXs8 _ _ => .nop

end Sys2Proof
end

