-- ==== Sys2Proof/WellFormed.lean ====
section
/-!
DEFINITION. Which terms of `Instr` are instructions. Every operand field takes every value (spec/30_encoding.md rule
R52: "no instruction word can name a register that does not exist"). Only the four no-op constructors carry a
condition: their selector is not a registered one (R58).
-/

namespace Sys2Proof

/-- The registered selectors of family 0 (R55, R58). -/
def registered0 : List Nibble := [0x0, 0xE]

/-- The registered selectors of family 8 (R55, R58). -/
def registered8 : List Nibble := [0x0, 0x1, 0x2, 0x3, 0x4, 0x5, 0x6, 0x7, 0xE]

/-- The registered selectors of family E (R55, R58). -/
def registeredE : List Nibble := [0x1, 0xE]

/-- The registered selectors of family F (R55, R58). -/
def registeredF : List Byte := [0x07, 0x0A, 0x15, 0x18, 0x1E, 0x29, 0x33, 0x55, 0x65]

/-- The well-formedness check. -/
def Instr.wf : Instr → Bool
  | .nopS4 _ sel => !registered0.contains sel
  | .nopXys _ _ sel => !registered8.contains sel
  | .nopXs4 _ _ sel => !registeredE.contains sel
  | .nopXs8 _ sel => !registeredF.contains sel
  | .cls _ | .ret _ | .jp _ | .call _ | .seVxKk _ _ | .sneVxKk _ _ | .seVxVy _ _ _ | .ldVxKk _ _ | .addVxKk _ _
  | .ldVxVy _ _ | .or _ _ | .and _ _ | .xor _ _ | .addVxVy _ _ | .sub _ _ | .shr _ _ | .subn _ _ | .shl _ _
  | .sneVxVy _ _ _ | .ldINnn _ | .jpV0 _ | .rnd _ _ | .drw _ _ _ | .skp _ _ | .sknp _ _ | .ldVxDt _ | .ldVxK _
  | .ldDtVx _ | .ldStVx _ | .addIVx _ | .ldFVx _ | .ldBVx _ | .ldImemVx _ | .ldVxImem _ => true

/-- `i` is an instruction the hardware has. -/
abbrev Instr.WellFormed (i : Instr) : Prop := i.wf = true

end Sys2Proof
end

