-- ==== Sys2Proof/Decode.lean ====
section
/-!
DEFINITION. From bits to instructions and back: field extraction (spec/30_encoding.md rules R51, R52), the two-level
dispatch (R55), the byte order (R50), and the encoder written from the same encodings (R54, R56, R62).
-/

namespace Sys2Proof

/-- `family = opcode[15:12]` (R52). -/
def family (w : Word) : Nibble := w.extractLsb' 12 4

/-- `x = opcode[11:8]` (R52). -/
def fieldX (w : Word) : Nibble := w.extractLsb' 8 4

/-- `y = opcode[7:4]` (R52). -/
def fieldY (w : Word) : Nibble := w.extractLsb' 4 4

/-- `n = opcode[3:0]` (R52); also the secondary selector of families 0, 8 and E (R55). -/
def fieldN (w : Word) : Nibble := w.extractLsb' 0 4

/-- `kk = opcode[7:0]` (R52); also the secondary selector of family F (R55). -/
def fieldKk (w : Word) : Byte := w.extractLsb' 0 8

/-- `nnn = opcode[11:0]` (R52). -/
def fieldNnn (w : Word) : Addr12 := w.extractLsb' 0 12

/-- Bits 11 to 4, which decode does not examine in family 0 (R54 format `S4`). -/
def fieldMid (w : Word) : Byte := w.extractLsb' 4 8

/-- The secondary dispatch of family 0, on the low nibble (R55). -/
def decode0 (w : Word) : Instr :=
  match fieldN w with
  | 0x0#4 => .cls (fieldMid w)
  | 0xE#4 => .ret (fieldMid w)
  | sel => .nopS4 (fieldMid w) sel

/-- The secondary dispatch of family 8, on the low nibble (R55). -/
def decode8 (w : Word) : Instr :=
  match fieldN w with
  | 0x0#4 => .ldVxVy (fieldX w) (fieldY w)
  | 0x1#4 => .or (fieldX w) (fieldY w)
  | 0x2#4 => .and (fieldX w) (fieldY w)
  | 0x3#4 => .xor (fieldX w) (fieldY w)
  | 0x4#4 => .addVxVy (fieldX w) (fieldY w)
  | 0x5#4 => .sub (fieldX w) (fieldY w)
  | 0x6#4 => .shr (fieldX w) (fieldY w)
  | 0x7#4 => .subn (fieldX w) (fieldY w)
  | 0xE#4 => .shl (fieldX w) (fieldY w)
  | sel => .nopXys (fieldX w) (fieldY w) sel

/-- The secondary dispatch of family E, on the low nibble (R55). -/
def decodeE (w : Word) : Instr :=
  match fieldN w with
  | 0xE#4 => .skp (fieldX w) (fieldY w)
  | 0x1#4 => .sknp (fieldX w) (fieldY w)
  | sel => .nopXs4 (fieldX w) (fieldY w) sel

/-- The secondary dispatch of family F, on the low byte (R55). -/
def decodeF (w : Word) : Instr :=
  match fieldKk w with
  | 0x07#8 => .ldVxDt (fieldX w)
  | 0x0A#8 => .ldVxK (fieldX w)
  | 0x15#8 => .ldDtVx (fieldX w)
  | 0x18#8 => .ldStVx (fieldX w)
  | 0x1E#8 => .addIVx (fieldX w)
  | 0x29#8 => .ldFVx (fieldX w)
  | 0x33#8 => .ldBVx (fieldX w)
  | 0x55#8 => .ldImemVx (fieldX w)
  | 0x65#8 => .ldVxImem (fieldX w)
  | sel => .nopXs8 (fieldX w) sel

/-- Decode (R55, R73): a total function of the 16-bit word that never fails. -/
def decodeWord (w : Word) : Instr :=
  match family w with
  | 0x0#4 => decode0 w
  | 0x1#4 => .jp (fieldNnn w)
  | 0x2#4 => .call (fieldNnn w)
  | 0x3#4 => .seVxKk (fieldX w) (fieldKk w)
  | 0x4#4 => .sneVxKk (fieldX w) (fieldKk w)
  | 0x5#4 => .seVxVy (fieldX w) (fieldY w) (fieldN w)
  | 0x6#4 => .ldVxKk (fieldX w) (fieldKk w)
  | 0x7#4 => .addVxKk (fieldX w) (fieldKk w)
  | 0x8#4 => decode8 w
  | 0x9#4 => .sneVxVy (fieldX w) (fieldY w) (fieldN w)
  | 0xA#4 => .ldINnn (fieldNnn w)
  | 0xB#4 => .jpV0 (fieldNnn w)
  | 0xC#4 => .rnd (fieldX w) (fieldKk w)
  | 0xD#4 => .drw (fieldX w) (fieldY w) (fieldN w)
  | 0xE#4 => decodeE w
  | _ => decodeF w

/-- The instruction word of two bytes: the byte at the lower address is bits 15 to 8 (R50, R35). -/
def wordOfBytes (hi lo : Byte) : Word := hi ++ lo

/-- The byte a word puts at the lower address (R50). -/
def hiByte (w : Word) : Byte := w.extractLsb' 8 8

/-- The byte a word puts at the higher address (R50). -/
def loByte (w : Word) : Byte := w.extractLsb' 0 8

/-- Why a byte string holds no instruction. -/
inductive DecodeError where
  /-- fewer than the two bytes every instruction has (R50) -/
  | truncated
  deriving DecidableEq, Repr

/-- Decode the first instruction of a byte string, lowest address first, and give back the rest. -/
def decode : List Byte → Except DecodeError (Instr × List Byte)
  | hi :: lo :: rest => .ok (decodeWord (wordOfBytes hi lo), rest)
  | _ => .error .truncated

/-- The instruction word of an instruction, from the encodings of R54 and R56. -/
def encode : Instr → Word
  | .cls ign => 0x0#4 ++ ign ++ 0x0#4
  | .ret ign => 0x0#4 ++ ign ++ 0xE#4
  | .jp nnn => 0x1#4 ++ nnn
  | .call nnn => 0x2#4 ++ nnn
  | .seVxKk x kk => 0x3#4 ++ x ++ kk
  | .sneVxKk x kk => 0x4#4 ++ x ++ kk
  | .seVxVy x y ign => 0x5#4 ++ x ++ y ++ ign
  | .ldVxKk x kk => 0x6#4 ++ x ++ kk
  | .addVxKk x kk => 0x7#4 ++ x ++ kk
  | .ldVxVy x y => 0x8#4 ++ x ++ y ++ 0x0#4
  | .or x y => 0x8#4 ++ x ++ y ++ 0x1#4
  | .and x y => 0x8#4 ++ x ++ y ++ 0x2#4
  | .xor x y => 0x8#4 ++ x ++ y ++ 0x3#4
  | .addVxVy x y => 0x8#4 ++ x ++ y ++ 0x4#4
  | .sub x y => 0x8#4 ++ x ++ y ++ 0x5#4
  | .shr x y => 0x8#4 ++ x ++ y ++ 0x6#4
  | .subn x y => 0x8#4 ++ x ++ y ++ 0x7#4
  | .shl x y => 0x8#4 ++ x ++ y ++ 0xE#4
  | .sneVxVy x y ign => 0x9#4 ++ x ++ y ++ ign
  | .ldINnn nnn => 0xA#4 ++ nnn
  | .jpV0 nnn => 0xB#4 ++ nnn
  | .rnd x kk => 0xC#4 ++ x ++ kk
  | .drw x y n => 0xD#4 ++ x ++ y ++ n
  | .skp x ign => 0xE#4 ++ x ++ ign ++ 0xE#4
  | .sknp x ign => 0xE#4 ++ x ++ ign ++ 0x1#4
  | .ldVxDt x => 0xF#4 ++ x ++ 0x07#8
  | .ldVxK x => 0xF#4 ++ x ++ 0x0A#8
  | .ldDtVx x => 0xF#4 ++ x ++ 0x15#8
  | .ldStVx x => 0xF#4 ++ x ++ 0x18#8
  | .addIVx x => 0xF#4 ++ x ++ 0x1E#8
  | .ldFVx x => 0xF#4 ++ x ++ 0x29#8
  | .ldBVx x => 0xF#4 ++ x ++ 0x33#8
  | .ldImemVx x => 0xF#4 ++ x ++ 0x55#8
  | .ldVxImem x => 0xF#4 ++ x ++ 0x65#8
  | .nopS4 ign sel => 0x0#4 ++ ign ++ sel
  | .nopXys x y sel => 0x8#4 ++ x ++ y ++ sel
  | .nopXs4 x ign sel => 0xE#4 ++ x ++ ign ++ sel
  | .nopXs8 x sel => 0xF#4 ++ x ++ sel

/-- The canonical encoding of an instruction (R57, R60): the bits decode ignores as the catalogue's pattern prints
them. An instruction whose row has no such bits is its own; a no-op has no canonical word and is left as it is. -/
def Instr.canonical : Instr → Instr
  | .cls _ => .cls 0x0E
  | .ret _ => .ret 0x0E
  | .seVxVy x y _ => .seVxVy x y 0x0
  | .sneVxVy x y _ => .sneVxVy x y 0x0
  | .skp x _ => .skp x 0x9
  | .sknp x _ => .sknp x 0xA
  | i => i

/-- The two bytes of an instruction, lowest address first (R50). -/
def encodeBytes (i : Instr) : List Byte := [hiByte (encode i), loByte (encode i)]

/-- One row of the opcode map of R56: an operation, its `mask` and its `match`. -/
structure OpcodeRow where
  op : Op
  mask : Word
  pattern : Word
  deriving DecidableEq, Repr

/-- The opcode map of R56: the 34 catalogued operations, in the catalogue's order. -/
def opcodeMap : List OpcodeRow :=
  [⟨.cls, 0xF00F, 0x0000⟩, ⟨.ret, 0xF00F, 0x000E⟩, ⟨.jp, 0xF000, 0x1000⟩, ⟨.call, 0xF000, 0x2000⟩,
   ⟨.seVxKk, 0xF000, 0x3000⟩, ⟨.sneVxKk, 0xF000, 0x4000⟩, ⟨.seVxVy, 0xF000, 0x5000⟩, ⟨.ldVxKk, 0xF000, 0x6000⟩,
   ⟨.addVxKk, 0xF000, 0x7000⟩] ++
  [⟨.ldVxVy, 0xF00F, 0x8000⟩, ⟨.or, 0xF00F, 0x8001⟩, ⟨.and, 0xF00F, 0x8002⟩, ⟨.xor, 0xF00F, 0x8003⟩,
   ⟨.addVxVy, 0xF00F, 0x8004⟩, ⟨.sub, 0xF00F, 0x8005⟩, ⟨.shr, 0xF00F, 0x8006⟩, ⟨.subn, 0xF00F, 0x8007⟩,
   ⟨.shl, 0xF00F, 0x800E⟩] ++
  [⟨.sneVxVy, 0xF000, 0x9000⟩, ⟨.ldINnn, 0xF000, 0xA000⟩, ⟨.jpV0, 0xF000, 0xB000⟩, ⟨.rnd, 0xF000, 0xC000⟩,
   ⟨.drw, 0xF000, 0xD000⟩, ⟨.skp, 0xF00F, 0xE00E⟩, ⟨.sknp, 0xF00F, 0xE001⟩] ++
  [⟨.ldVxDt, 0xF0FF, 0xF007⟩, ⟨.ldVxK, 0xF0FF, 0xF00A⟩, ⟨.ldDtVx, 0xF0FF, 0xF015⟩, ⟨.ldStVx, 0xF0FF, 0xF018⟩,
   ⟨.addIVx, 0xF0FF, 0xF01E⟩, ⟨.ldFVx, 0xF0FF, 0xF029⟩, ⟨.ldBVx, 0xF0FF, 0xF033⟩, ⟨.ldImemVx, 0xF0FF, 0xF055⟩,
   ⟨.ldVxImem, 0xF0FF, 0xF065⟩]

/-- The instruction this decoder reads from an instruction whose bits are `w`, numbered as spec/opcode_table.json
numbers them; the bits from `nbits` up are 0. The word is laid out big-endian, as memory holds it (R50). -/
def decodeTableWord (nbits w : Nat) : Option Instr :=
  let word : Word := BitVec.ofNat 16 (w % 2 ^ nbits)
  match decode [hiByte word, loByte word] with
  | .ok (i, _) => some i
  | .error _ => none

end Sys2Proof
end

