-- ==== Sys2Proof/Config.lean ====
section
/-!
DEFINITION. What an implementation of the block may choose and what the spec leaves free (spec/00_scope.md rule R6, the
list that closes spec/92_eei_decisions.md): the type of the parameters the machine runs on, `GLYPH_ROM` and `DRAW_EDGE`;
the open rate `CYCLE_HZ`; the free input `rnd`. The open width `CELL_SENTINEL_WIDTH` is the argument of
`State.presentCell`. The values the spec takes stand in Sys2Proof/Machine/Params.lean.
-/

namespace Sys2Proof

/-- The two values of the parameter `DRAW_EDGE` (R6, R116, R117): what happens to a sprite pixel whose column exceeds
63 or whose row exceeds 31. -/
inductive DrawEdge where
  /-- each coordinate is reduced separately, modulo 64 and modulo 32 (R116) -/
  | wrap
  /-- the pixel is skipped: no cell toggles, no collision counts (R117) -/
  | clip
  deriving DecidableEq, Repr

/-- The parameters a machine of this block is built with (R6, R28). A `State` carries the value it was built with
(`State.params`), and no cycle and no move of the host changes it (notes/assumptions/21.md). -/
structure Params where
  /-- `GLYPH_ROM`: the 80 bytes at 0x000 to 0x04F (R23, D13) -/
  glyphRom : Vector Byte 80
  /-- `DRAW_EDGE`: the fate of an off-screen sprite pixel (R116, R117, D8) -/
  drawEdge : DrawEdge
  deriving DecidableEq, Repr

/-- The parameter `CYCLE_HZ`, the rate at which the driver asks for cycles. `OPEN` (R6, D25): a constant with no body.
No rule of the spec uses it (R168), so no definition of the model does (notes/assumptions/16.md). -/
opaque Config.cycleHz : Nat

/-- The free input `rnd` (R6, R103, R142): `Config.rnd k` is the byte the random source delivers at draw number `k`.
FREE VALUE (notes/assumptions/1.md): a constant with no body, so nothing can be proved of any draw. -/
opaque Config.rnd : Nat → Byte

end Sys2Proof
end

