-- ==== Sys2Proof/Machine/Params.lean ====
section
/-!
DEFINITION. The values the spec takes for the block's two parameters that have one (spec/00_scope.md rule R6):
`GLYPH_ROM` (spec/10_state.md rule R23) and `DRAW_EDGE` (spec/44_display.md rules R116, R117). They are defaults: a
machine is built with any value of `Params` by `State.resetWith`.
-/

namespace Sys2Proof.Machine

/-- The 80 bytes of R23's table. The source does not give them; the spec supplies the conventional font from general
knowledge as the default of `GLYPH_ROM` (notes/assumptions/3.md). -/
def glyphTable : List Byte :=
  [0xF0, 0x90, 0x90, 0x90, 0xF0] ++ [0x20, 0x60, 0x20, 0x20, 0x70] ++
  [0xF0, 0x10, 0xF0, 0x80, 0xF0] ++ [0xF0, 0x10, 0xF0, 0x10, 0xF0] ++
  [0x90, 0x90, 0xF0, 0x10, 0x10] ++ [0xF0, 0x80, 0xF0, 0x10, 0xF0] ++
  [0xF0, 0x80, 0xF0, 0x90, 0xF0] ++ [0xF0, 0x10, 0x20, 0x40, 0x40] ++
  [0xF0, 0x90, 0xF0, 0x90, 0xF0] ++ [0xF0, 0x90, 0xF0, 0x10, 0xF0] ++
  [0xF0, 0x90, 0xF0, 0x90, 0x90] ++ [0xE0, 0x90, 0xE0, 0x90, 0xE0] ++
  [0xF0, 0x80, 0x80, 0x80, 0xF0] ++ [0xE0, 0x90, 0x90, 0x90, 0xE0] ++
  [0xF0, 0x80, 0xF0, 0x80, 0xF0] ++ [0xF0, 0x80, 0xF0, 0x80, 0x80]

/-- `GLYPH_ROM`: the value this spec takes (R6, R23, D13). -/
def glyphRom : Vector Byte 80 := ⟨⟨glyphTable⟩, rfl⟩

/-- `DRAW_EDGE`: the value this spec takes (R6, R116, D8; notes/assumptions/4.md). -/
def drawEdge : DrawEdge := .wrap

/-- The parameters of `State.reset`: both values this spec takes. -/
def paramsTaken : Params := { glyphRom := glyphRom, drawEdge := drawEdge }

end Sys2Proof.Machine
end

