-- ==== Sys2Proof/Machine/State.lean ====
section
/-!
DEFINITION. The Machine State (spec/10_state.md rules R10 to R29), its value after reset (R27, R150), and the reasons
a cycle can raise a fault (spec/60_exceptions.md rule R131).
-/

namespace Sys2Proof.Machine

/-- The fault codes of R131. Raising one is a state change the spec describes (R132): the cycle commits nothing and
latches the code in `State.fault`. So `exec` and `step` answer a NEXT state in every case, and no step answers
`Host.Outcome.fault`: the type is the code field of the latch. The conditions are undefined in the source and made
faults by the spec (D1): that is SAFE, since a halted core makes claims unprovable, never false ones provable. -/
inductive Fault where
  /-- code 1: raised by the fetch of any cycle when `pc > 0xFFE` (R71); safe -/
  | fetchOutOfRange
  /-- code 2: raised by `2nnn` when `sp = 16` (R83); safe -/
  | stackOverflow
  /-- code 3: raised by `00EE` when `sp = 0` (R81); safe -/
  | stackUnderflow
  /-- code 4: raised by `Dxyn` and `Fx65` when a byte read lies above 0xFFF (R33, R116, R111); safe -/
  | memReadOutOfRange
  /-- code 5: raised by `Fx33` and `Fx55` when a byte written lies above 0xFFF (R34, R109, R110); safe -/
  | memWriteOutOfRange
  /-- code 6: raised by `Fx33` and `Fx55` when a byte written lies at or below 0x04F (R34); safe -/
  | glyphRomWrite
  /-- code 7: raised by `Ex9E` and `ExA1` when `V[x] > 0xF` (R120, R121); safe -/
  | keyIndexOutOfRange
  deriving DecidableEq, Repr

/-- The number of a fault code (R131). -/
def Fault.number : Fault → Nat
  | .fetchOutOfRange => 1
  | .stackOverflow => 2
  | .stackUnderflow => 3
  | .memReadOutOfRange => 4
  | .memWriteOutOfRange => 5
  | .glyphRomWrite => 6
  | .keyIndexOutOfRange => 7

/-- Why a step would have no meaning. -/
inductive Refusal where
  /-- raised by no arm of `exec` of this model: every instruction has its meaning; refusing is safe -/
  | notModelled (mnemonic : String)
  deriving DecidableEq, Repr

/-- What the fault latch records (R24, R131). -/
structure FaultRecord where
  /-- the fault code -/
  code : Fault
  /-- the address of the faulting instruction: `pc` before the cycle -/
  pc : Word
  /-- the word the cycle fetched; absent for `fetchOutOfRange` -/
  opcode : Option Word
  deriving DecidableEq, Repr

/-- The RAM, 0x050 to 0xFFF: the bytes that differ from their reset contents, as (address, byte) pairs with strictly
rising addresses (R22, R30, R31; the canonical form is `Memory.wf` in Sys2Proof/Machine/Ops.lean). The glyph ROM is
`GLYPH_ROM` itself; `State.byte` reads the whole address space. -/
abbrev Memory := List Host.Cell

/-- The framebuffer: 32 rows of 64 one-bit cells; bit `px` of row `py` is the cell `video[px, py]` (R19). It is read
and written only through `Video.cell` and `Video.toggle` (Sys2Proof/Machine/Ops.lean). -/
abbrev Video := Vector (BitVec 64) 32

/-- The Machine State (R10), with the fault latch (R24). The last three fields are the model's own places for what R28
calls inputs or parameters of the step and not state: the parameters the machine was built with, which nothing changes,
and where the block's two inputs stand (R142, R144). -/
structure State where
  /-- `memory` from 0x050 up (R22, R30, R31); below stands `params.glyphRom` -/
  mem : Memory
  /-- `V[0]` to `V[15]` (R11); `V[15]` is `VF` (R12) -/
  regs : Vector Byte 16
  /-- `I`, the document's `index` (R14) -/
  index : Word
  /-- `pc` (R15) -/
  pc : Word
  /-- `stack[0]` to `stack[15]` (R16) -/
  stack : Vector Word 16
  /-- `sp`: the count of entries in use, 0 to 16 (R17) -/
  sp : Fin 17
  /-- `DT`, the delay timer (R18) -/
  dt : Byte
  /-- `ST`, the sound timer (R18) -/
  st : Byte
  /-- `video`: the framebuffer (R19) -/
  video : Video
  /-- `key[15:0]`: bit `k` is the flag of key `k`, 1 pressed (R20, R144) -/
  keypad : BitVec 16
  /-- `opcode`: the most recently fetched instruction word (R21) -/
  opcode : Word
  /-- the fault latch (R24) -/
  fault : Option FaultRecord
  /-- MODEL'S OWN PLACE: the parameters `GLYPH_ROM` and `DRAW_EDGE`, constant (R6, R28; notes/assumptions/21.md) -/
  params : Params
  /-- MODEL'S OWN: how many random bytes `Cxkk` has drawn (R103; notes/assumptions/1.md) -/
  rndDraws : Nat
  /-- MODEL'S OWN: the host's keypad writes still to come, one before each coming cycle; when it is empty the host
  writes nothing more (R20, R144; notes/assumptions/2.md) -/
  keyInput : List (BitVec 16)
  deriving DecidableEq, Repr

/-- The machine with the parameters `p` right after reset (R27, R150): the glyph ROM holds `GLYPH_ROM`, every other byte
of memory is at its reset contents, `pc = 0x200`, no fault, all else 0. -/
def State.resetWith (p : Params) : State where
  mem := []
  regs := Vector.replicate 16 0
  index := 0
  pc := 0x200
  stack := Vector.replicate 16 0
  sp := 0
  dt := 0
  st := 0
  video := Vector.replicate 32 0
  keypad := 0
  opcode := 0
  fault := none
  params := p
  rndDraws := 0
  keyInput := []

/-- The machine right after reset (R27, R150), with the parameters this spec takes (R6). -/
def State.reset : State := State.resetWith paramsTaken

end Sys2Proof.Machine
end

