-- ==== Sys2Proof/Machine/Ops.lean ====
section
/-!
DEFINITION. The named operations over the Machine State: memory (spec/20_memory.md rules R30 to R37), registers
(spec/10_state.md), the call stack, the framebuffer, the two inputs, and the frame every instruction runs in:
latch and advance (R70 to R72), raising a fault (R132), the timer step (R75).
-/

namespace Sys2Proof.Machine

/-! ### Memory -/

/-- What a RAM address reads as that the memory list does not name: its reset contents, zero (R27, R32). -/
def unlistedByte : Byte := 0

/-- The byte RAM holds at address `a`. -/
def Memory.read : Memory → Nat → Byte
  | [], _ => unlistedByte
  | (k, b) :: rest, a => if k = a then b else Memory.read rest a

/-- Put the cell `(a, b)` in its place by address, replacing a cell of the same address. -/
def Memory.insertCell (a : Nat) (b : Byte) : Memory → Memory
  | [] => [(a, b)]
  | (k, c) :: rest =>
    if a < k then (a, b) :: (k, c) :: rest
    else if a = k then (a, b) :: rest
    else (k, c) :: Memory.insertCell a b rest

/-- Take the cell of address `a` out. -/
def Memory.eraseCell (a : Nat) (m : Memory) : Memory := m.filter fun c => c.1 ≠ a

/-- Write one byte, keeping the canonical form: a byte equal to what an unlisted address reads as is
not listed. -/
def Memory.write (m : Memory) (a : Nat) (b : Byte) : Memory :=
  if b = unlistedByte then Memory.eraseCell a m else Memory.insertCell a b m

/-- Every address of `m` lies above `a`, and the addresses rise strictly. -/
def Memory.risesFrom : Nat → Memory → Bool
  | _, [] => true
  | a, (k, _) :: rest => decide (a ≤ k) && Memory.risesFrom (k + 1) rest

/-- The canonical form: addresses strictly rising, no cell equal to what an unlisted address reads as. -/
def Memory.wf (m : Memory) : Bool := Memory.risesFrom 0 m && m.all fun c => c.2 != unlistedByte

/-- Write a list of bytes from address `a` up, lowest address first. -/
def Memory.writeBytes (m : Memory) (a : Nat) : List Byte → Memory
  | [] => m
  | b :: rest => Memory.writeBytes (m.write a b) (a + 1) rest

/-- `memory[a]` of a state (R22): the parameter `GLYPH_ROM` at 0x000 to 0x04F, RAM above it (R23, R31). No write reaches
the glyph ROM (R34), so the two never overlap. -/
def State.byte (s : State) (a : Nat) : Byte :=
  if h : a ≤ 0x04F then s.params.glyphRom[a] else s.mem.read a

/-- The `n` bytes from address `a` up, lowest address first. -/
def State.bytes (s : State) (a n : Nat) : List Byte := (List.range n).map fun k => s.byte (a + k)

/-- `MemRead(addr, n)` (R33): faults when some byte lies above 0xFFF, and reads nothing when `n = 0`. -/
def State.memRead (s : State) (addr n : Nat) : Except Fault (List Byte) :=
  if 0 < n ∧ 0xFFF < addr + n - 1 then .error .memReadOutOfRange else .ok (s.bytes addr n)

/-- `MemWrite(addr, n, v)` (R34), `n` the length of `bytes`: the whole range is checked before a byte is written. -/
def State.memWrite (s : State) (addr : Nat) (bytes : List Byte) : Except Fault State :=
  if 0xFFF < addr + bytes.length - 1 then .error .memWriteOutOfRange
  else if addr ≤ 0x04F then .error .glyphRomWrite
  else .ok { s with mem := s.mem.writeBytes addr bytes }

/-! ### Registers -/

/-- The register `VF`, `V[15]` (R8, R12). -/
def vf : Nibble := 0xF

/-- Read of general register `V[x]` (R8, R11). -/
def State.reg (s : State) (x : Nibble) : Byte := s.regs[x.toNat]'x.isLt

/-- Write of general register `V[x]` (R8, R11). -/
def State.setReg (s : State) (x : Nibble) (v : Byte) : State := { s with regs := s.regs.set x.toNat v x.isLt }

/-- `V[i] <- bytes[i]` for every `i` below the length of `bytes` (R111); the other registers keep their values. -/
def State.setRegsFrom0 (s : State) (bytes : List Byte) : State :=
  { s with regs := Vector.ofFn fun r => bytes.getD r.val s.regs[r] }

/-- `I <- v` (R14). -/
def State.setIndex (s : State) (v : Word) : State := { s with index := v }

/-- `pc <- target` (R15). -/
def State.setPc (s : State) (target : Word) : State := { s with pc := target }

/-- `DT <- v` (R18). -/
def State.setDt (s : State) (v : Byte) : State := { s with dt := v }

/-- `ST <- v` (R18). -/
def State.setSt (s : State) (v : Byte) : State := { s with st := v }

/-! ### The call stack -/

/-- Push a return address at index `sp` and increment `sp`; `stackOverflow` when the stack is full (R16, R17, R83). -/
def State.push (s : State) (v : Word) : Except Fault State :=
  if h : s.sp.val < 16 then
    .ok { s with stack := s.stack.set s.sp.val v h, sp := ⟨s.sp.val + 1, by omega⟩ }
  else .error .stackOverflow

/-- Decrement `sp` and give the entry it then indexes; the entry keeps its value; `stackUnderflow` when the stack is
empty (R16, R17, R81). -/
def State.pop (s : State) : Except Fault (Word × State) :=
  if h : s.sp.val = 0 then .error .stackUnderflow
  else .ok (s.stack[s.sp.val - 1]'(by have := s.sp.isLt; omega),
    { s with sp := ⟨s.sp.val - 1, by have := s.sp.isLt; omega⟩ })

/-! ### The framebuffer -/

/-- `video[px, py]`: lit or not (R19). -/
def Video.cell (v : Video) (px : Fin 64) (py : Fin 32) : Bool := v[py].getLsbD px.val

/-- `video[px, py] <- video[px, py] XOR 1` (R116). -/
def Video.toggle (v : Video) (px : Fin 64) (py : Fin 32) : Video :=
  v.set py.val (v[py] ^^^ BitVec.twoPow 64 px.val) py.isLt

/-- The framebuffer with every cell unlit (R115). -/
def Video.dark : Video := Vector.replicate 32 0

/-- Replace the framebuffer. -/
def State.setVideo (s : State) (v : Video) : State := { s with video := v }

/-- `video[px, py]` of a state. -/
def State.cell (s : State) (px : Fin 64) (py : Fin 32) : Bool := s.video.cell px py

/-! ### The inputs -/

/-- `key[k]` as the host set it for this cycle (R20, R144). -/
def State.keyDown (s : State) (k : Fin 16) : Bool := s.keypad.getLsbD k.val

/-- The host replaces the 16 keypad flags between two cycles (R20, R144). -/
def State.setKeypad (s : State) (k : BitVec 16) : State := { s with keypad := k }

/-- The host's move before a cycle: its next keypad write, if one is still to come (R20, R144). -/
def State.takeKeys (s : State) : State :=
  match s.keyInput with
  | [] => s
  | k :: rest => { s with keypad := k, keyInput := rest }

/-- The random byte this execution of `Cxkk` draws (R103, R142). -/
def State.rnd (s : State) : Byte := Config.rnd s.rndDraws

/-- One random byte has been drawn: the next draw is a fresh one. -/
def State.countDraw (s : State) : State := { s with rndDraws := s.rndDraws + 1 }

/-! ### The frame of every instruction -/

/-- Steps 1 and 2 of the cycle on a fetched word: `opcode <- w`, `pc <- (pc + 2) mod 2^16` (R70, R71, R72). -/
def State.latchAndAdvance (s : State) (w : Word) : State := { s with opcode := w, pc := s.pc + 2 }

/-- A timer after the timer step: one less, floored at 0 (R75, R18). -/
def tick (t : Byte) : Byte := if t = 0 then 0 else t - 1

/-- Step 5 of the cycle: both timers, independently (R75). -/
def State.tickTimers (s : State) : State := { s with dt := tick s.dt, st := tick s.st }

/-- TAKING A FAULT (R132, R24): nothing of the cycle is committed but the latch, which records the code, the address
of the faulting instruction and the fetched word. `s` is the state before the cycle. There is no return from a fault
but reset (R133, R136). -/
def State.raise (s : State) (code : Fault) (w : Option Word) : State :=
  { s with fault := some { code := code, pc := s.pc, opcode := w } }

/-- The execute step of an operation (R74): from the state after step 2, either all its writes or one fault. -/
abbrev Effect := State → Except Fault State

/-- One cycle after the fetch of `w`: latch, advance, execute, timers; a raised fault discards all of it (R70, R132). -/
def State.runCycle (s : State) (w : Word) (execute : Effect) : Host.Outcome State Fault Refusal :=
  match execute (s.latchAndAdvance w) with
  | .ok s2 => .next s2.tickTimers
  | .error code => .next (s.raise code (some w))

end Sys2Proof.Machine
end

