-- ==== Sys2Proof/Machine/Operands.lean ====
section
/-!
DEFINITION. The operand forms: how the operations find their sources and targets (spec/30_encoding.md rules R52, R53,
spec/43_index_memory.md rule R105, spec/44_display.md rule R116, spec/45_keypad_timers.md rules R120, R122).
-/

namespace Sys2Proof.Machine

/-- The immediate address `nnn`, zero-extended (R53). -/
def target (nnn : Addr12) : Word := nnn.zeroExtend 16

/-- The target of `Bnnn`: `(zext_16(V[0]) + zext_16(nnn)) mod 2^16` (R88). -/
def State.indexedTarget (s : State) (nnn : Addr12) : Word := (s.reg 0).zeroExtend 16 + target nnn

/-- The effective address of the first element of a data access: `I` as a natural number (R105). -/
def State.dataAddr (s : State) : Nat := s.index.toNat

/-- The registers `V[0], …, V[x]` in order (R110). -/
def State.regsUpTo (s : State) (x : Nibble) : List Byte :=
  (List.range (x.toNat + 1)).map fun k => s.reg (BitVec.ofNat 4 k)

/-- The decimal digits of a byte: hundreds, tens, ones (R109). -/
def decimalDigits (v : Byte) : List Byte :=
  [BitVec.ofNat 8 (v.toNat / 100), BitVec.ofNat 8 (v.toNat / 10 % 10), BitVec.ofNat 8 (v.toNat % 10)]

/-- The address `Fx29` computes: `5 × zext_16(V[x])`, on the whole 8-bit value (R108). -/
def glyphAddr (v : Byte) : Word := 5 * v.zeroExtend 16

/-- The key number a register value names; `keyIndexOutOfRange` above 15 (R120, R121). -/
def keyIndex (v : Byte) : Except Fault (Fin 16) :=
  if h : v.toNat < 16 then .ok ⟨v.toNat, h⟩ else .error .keyIndexOutOfRange

/-- The lowest-numbered pressed key, if any is pressed (R122). -/
def State.lowestKey (s : State) : Option (Fin 16) := (List.finRange 16).find? fun k => s.keyDown k

/-- The origin column of a sprite: `V[x] mod 64` (R116). -/
def originX (v : Byte) : Nat := v.toNat % 64

/-- The origin row of a sprite: `V[y] mod 32` (R116). -/
def originY (v : Byte) : Nat := v.toNat % 32

/-- The pixels of one sprite row that its set bits ask for, before any edge policy; bit 7 is column 0, the leftmost
(R116). -/
def rowPixels (x0 py : Nat) (b : Byte) : List (Nat × Nat) :=
  ((List.range 8).filter fun c => b.getLsbD (7 - c)).map fun c => (x0 + c, py)

/-- The pixels of a sprite, top row first (R116). -/
def spritePixels (x0 y0 : Nat) : List Byte → List (Nat × Nat)
  | [] => []
  | b :: rest => rowPixels x0 y0 b ++ spritePixels x0 (y0 + 1) rest

/-- The cell a pixel lands on under an edge policy, if any (R116 for `wrap`, R117 for `clip`). -/
def placePixel (edge : DrawEdge) (p : Nat × Nat) : Option (Fin 64 × Fin 32) :=
  match edge with
  | .wrap => some (Fin.ofNat 64 p.1, Fin.ofNat 32 p.2)
  | .clip => if h : p.1 < 64 ∧ p.2 < 32 then some (⟨p.1, h.1⟩, ⟨p.2, h.2⟩) else none

/-- The cells a sprite toggles, in drawing order (R116, R117). -/
def spriteCells (edge : DrawEdge) (x0 y0 : Nat) (rows : List Byte) : List (Fin 64 × Fin 32) :=
  (spritePixels x0 y0 rows).filterMap (placePixel edge)

end Sys2Proof.Machine
end

