-- ==== Sys2Proof/Machine/Flags.lean ====
section
/-!
DEFINITION. Every value an operation writes to the flag register `VF` (spec/10_state.md rule R12): exactly 0 or 1.
-/

namespace Sys2Proof.Machine

/-- A flag as the byte `VF` receives: 0x01 or 0x00 (R12). -/
def flagByte (b : Bool) : Byte := if b then 1 else 0

/-- `8xy4`: 1 if the unwrapped sum exceeds 255 (R97). -/
def carryFlag (a b : Byte) : Byte := flagByte (decide (255 < a.toNat + b.toNat))

/-- `8xy5` with `a = V[x]`, `b = V[y]`, and `8xy7` with the two exchanged: 1 if `a > b`, strictly (R98, R100, R90). -/
def greaterFlag (a b : Byte) : Byte := flagByte (decide (b.toNat < a.toNat))

/-- `8xy6`: the bit shifted out on the right, bit 0 (R99). -/
def lowBitFlag (a : Byte) : Byte := flagByte (a.getLsbD 0)

/-- `8xyE`: the bit shifted out on the left, bit 7 (R101). -/
def topBitFlag (a : Byte) : Byte := flagByte (a.getLsbD 7)

/-- `Dxyn`: 1 if a toggled cell was lit before the draw (R116). -/
def collisionFlag (v : Video) (cells : List (Fin 64 × Fin 32)) : Byte := flagByte (cells.any fun c => v.cell c.1 c.2)

end Sys2Proof.Machine
end

