-- ==== Sys2Proof/Machine/Alu.lean ====
section
/-!
DEFINITION. Register and arithmetic operations (spec/42_alu.md rules R90 to R103). All operands are read from the
state at the start of the execute step; writes happen in the order of the rule's pseudocode and a later write to the
same register wins (R13), which matters when `x = 0xF`.
-/

namespace Sys2Proof.Machine

/-- `6xkk` LD Vx, byte (R91). -/
def ldVxKkEffect (x : Nibble) (kk : Byte) : Effect := fun s => .ok (s.setReg x kk)

/-- `7xkk` ADD Vx, byte: wraps, no flag (R92). -/
def addVxKkEffect (x : Nibble) (kk : Byte) : Effect := fun s => .ok (s.setReg x (s.reg x + kk))

/-- `8xy0` LD Vx, Vy (R93). -/
def ldVxVyEffect (x y : Nibble) : Effect := fun s => .ok (s.setReg x (s.reg y))

/-- `8xy1` OR (R94). -/
def orEffect (x y : Nibble) : Effect := fun s => .ok (s.setReg x (s.reg x ||| s.reg y))

/-- `8xy2` AND (R95). -/
def andEffect (x y : Nibble) : Effect := fun s => .ok (s.setReg x (s.reg x &&& s.reg y))

/-- `8xy3` XOR (R96). -/
def xorEffect (x y : Nibble) : Effect := fun s => .ok (s.setReg x (s.reg x ^^^ s.reg y))

/-- `8xy4` ADD: the sum first, the flag second (R97). -/
def addVxVyEffect (x y : Nibble) : Effect := fun s =>
  .ok ((s.setReg x (s.reg x + s.reg y)).setReg vf (carryFlag (s.reg x) (s.reg y)))

/-- `8xy5` SUB: the difference first, the flag second (R98). -/
def subEffect (x y : Nibble) : Effect := fun s =>
  .ok ((s.setReg x (s.reg x - s.reg y)).setReg vf (greaterFlag (s.reg x) (s.reg y)))

/-- `8xy6` SHR: the flag first, the shifted value second (R99). -/
def shrEffect (x : Nibble) : Effect := fun s =>
  .ok ((s.setReg vf (lowBitFlag (s.reg x))).setReg x (s.reg x >>> 1))

/-- `8xy7` SUBN: the difference first, the flag second (R100). -/
def subnEffect (x y : Nibble) : Effect := fun s =>
  .ok ((s.setReg x (s.reg y - s.reg x)).setReg vf (greaterFlag (s.reg y) (s.reg x)))

/-- `8xyE` SHL: the flag first, the shifted value second (R101). -/
def shlEffect (x : Nibble) : Effect := fun s =>
  .ok ((s.setReg vf (topBitFlag (s.reg x))).setReg x (s.reg x <<< 1))

/-- The result of `Cxkk` for a drawn byte (R103). -/
def maskedDraw (rnd kk : Byte) : Byte := rnd &&& kk

/-- `Cxkk` RND: draws one byte (R103, R142). -/
def rndEffect (x : Nibble) (kk : Byte) : Effect := fun s => .ok (s.countDraw.setReg x (maskedDraw s.rnd kk))

/-- The cycle of `6xkk` (R91). -/
def execLdVxKk (x : Nibble) (kk : Byte) (s : State) : Host.Outcome State Fault Refusal :=
  s.runCycle (encode (.ldVxKk x kk)) (ldVxKkEffect x kk)

/-- The cycle of `7xkk` (R92). -/
def execAddVxKk (x : Nibble) (kk : Byte) (s : State) : Host.Outcome State Fault Refusal :=
  s.runCycle (encode (.addVxKk x kk)) (addVxKkEffect x kk)

/-- The cycle of `8xy0` (R93). -/
def execLdVxVy (x y : Nibble) (s : State) : Host.Outcome State Fault Refusal :=
  s.runCycle (encode (.ldVxVy x y)) (ldVxVyEffect x y)

/-- The cycle of `8xy1` (R94). -/
def execOr (x y : Nibble) (s : State) : Host.Outcome State Fault Refusal :=
  s.runCycle (encode (.or x y)) (orEffect x y)

/-- The cycle of `8xy2` (R95). -/
def execAnd (x y : Nibble) (s : State) : Host.Outcome State Fault Refusal :=
  s.runCycle (encode (.and x y)) (andEffect x y)

/-- The cycle of `8xy3` (R96). -/
def execXor (x y : Nibble) (s : State) : Host.Outcome State Fault Refusal :=
  s.runCycle (encode (.xor x y)) (xorEffect x y)

/-- The cycle of `8xy4` (R97). -/
def execAddVxVy (x y : Nibble) (s : State) : Host.Outcome State Fault Refusal :=
  s.runCycle (encode (.addVxVy x y)) (addVxVyEffect x y)

/-- The cycle of `8xy5` (R98). -/
def execSub (x y : Nibble) (s : State) : Host.Outcome State Fault Refusal :=
  s.runCycle (encode (.sub x y)) (subEffect x y)

/-- The cycle of `8xy6` (R99); `y` is latched in `opcode` and used for nothing else. -/
def execShr (x y : Nibble) (s : State) : Host.Outcome State Fault Refusal :=
  s.runCycle (encode (.shr x y)) (shrEffect x)

/-- The cycle of `8xy7` (R100). -/
def execSubn (x y : Nibble) (s : State) : Host.Outcome State Fault Refusal :=
  s.runCycle (encode (.subn x y)) (subnEffect x y)

/-- The cycle of `8xyE` (R101); `y` is latched in `opcode` and used for nothing else. -/
def execShl (x y : Nibble) (s : State) : Host.Outcome State Fault Refusal :=
  s.runCycle (encode (.shl x y)) (shlEffect x)

/-- The cycle of `Cxkk` (R103). -/
def execRnd (x : Nibble) (kk : Byte) (s : State) : Host.Outcome State Fault Refusal :=
  s.runCycle (encode (.rnd x kk)) (rndEffect x kk)

end Sys2Proof.Machine
end

