-- ==== Sys2Proof/Machine/ControlFlow.lean ====
section
/-!
DEFINITION. Control transfer (spec/41_control_flow.md rules R80 to R89): return, jump, call, the four register skips,
the indexed jump. In every execute step `pc` is the already advanced one (R72).
-/

namespace Sys2Proof.Machine

/-- Skip the next instruction if `c` holds: `pc <- (pc + 2) mod 2^16` once more (R84 to R87, R120, R121). -/
def State.skipIf (s : State) (c : Bool) : State := if c then s.setPc (s.pc + 2) else s

/-- `00EE` RET (R81). -/
def retEffect : Effect := fun s =>
  match s.pop with
  | .ok (a, s') => .ok (s'.setPc a)
  | .error f => .error f

/-- `1nnn` JP (R82). -/
def jpEffect (nnn : Addr12) : Effect := fun s => .ok (s.setPc (target nnn))

/-- `2nnn` CALL (R83). -/
def callEffect (nnn : Addr12) : Effect := fun s =>
  match s.push s.pc with
  | .ok s' => .ok (s'.setPc (target nnn))
  | .error f => .error f

/-- `3xkk` SE Vx, byte (R84). -/
def seVxKkEffect (x : Nibble) (kk : Byte) : Effect := fun s => .ok (s.skipIf (decide (s.reg x = kk)))

/-- `4xkk` SNE Vx, byte (R85). -/
def sneVxKkEffect (x : Nibble) (kk : Byte) : Effect := fun s => .ok (s.skipIf (decide (s.reg x ≠ kk)))

/-- `5xy0` SE Vx, Vy (R86). -/
def seVxVyEffect (x y : Nibble) : Effect := fun s => .ok (s.skipIf (decide (s.reg x = s.reg y)))

/-- `9xy0` SNE Vx, Vy (R87). -/
def sneVxVyEffect (x y : Nibble) : Effect := fun s => .ok (s.skipIf (decide (s.reg x ≠ s.reg y)))

/-- `Bnnn` JP V0, addr (R88). -/
def jpV0Effect (nnn : Addr12) : Effect := fun s => .ok (s.setPc (s.indexedTarget nnn))

/-- The cycle of `00EE` (R81). -/
def execRet (ign : Byte) (s : State) : Host.Outcome State Fault Refusal :=
  s.runCycle (encode (.ret ign)) retEffect

/-- The cycle of `1nnn` (R82). -/
def execJp (nnn : Addr12) (s : State) : Host.Outcome State Fault Refusal :=
  s.runCycle (encode (.jp nnn)) (jpEffect nnn)

/-- The cycle of `2nnn` (R83). -/
def execCall (nnn : Addr12) (s : State) : Host.Outcome State Fault Refusal :=
  s.runCycle (encode (.call nnn)) (callEffect nnn)

/-- The cycle of `3xkk` (R84). -/
def execSeVxKk (x : Nibble) (kk : Byte) (s : State) : Host.Outcome State Fault Refusal :=
  s.runCycle (encode (.seVxKk x kk)) (seVxKkEffect x kk)

/-- The cycle of `4xkk` (R85). -/
def execSneVxKk (x : Nibble) (kk : Byte) (s : State) : Host.Outcome State Fault Refusal :=
  s.runCycle (encode (.sneVxKk x kk)) (sneVxKkEffect x kk)

/-- The cycle of `5xy0` (R86). -/
def execSeVxVy (x y ign : Nibble) (s : State) : Host.Outcome State Fault Refusal :=
  s.runCycle (encode (.seVxVy x y ign)) (seVxVyEffect x y)

/-- The cycle of `9xy0` (R87). -/
def execSneVxVy (x y ign : Nibble) (s : State) : Host.Outcome State Fault Refusal :=
  s.runCycle (encode (.sneVxVy x y ign)) (sneVxVyEffect x y)

/-- The cycle of `Bnnn` (R88). -/
def execJpV0 (nnn : Addr12) (s : State) : Host.Outcome State Fault Refusal :=
  s.runCycle (encode (.jpV0 nnn)) (jpV0Effect nnn)

end Sys2Proof.Machine
end

