-- ==== Sys2Proof/Machine/Display.lean ====
section
/-!
DEFINITION. The display operations (spec/44_display.md rules R115 to R118): clear and draw.
-/

namespace Sys2Proof.Machine

/-- `00E0` CLS (R115). -/
def clsEffect : Effect := fun s => .ok (s.setVideo Video.dark)

/-- Toggle every cell of a list in order (R116). -/
def Video.toggleAll (v : Video) (cells : List (Fin 64 × Fin 32)) : Video := cells.foldl (fun u c => u.toggle c.1 c.2) v

/-- The cells `Dxyn` toggles in state `s`, given the sprite's rows: as R116 says where the parameter `DRAW_EDGE` is
`wrap`, as R117 says where it is `clip`. -/
def State.drawnCells (s : State) (x y : Nibble) (rows : List Byte) : List (Fin 64 × Fin 32) :=
  spriteCells s.params.drawEdge (originX (s.reg x)) (originY (s.reg y)) rows

/-- `Dxyn` DRW, under either edge policy: all rows are read before any cell changes; `VF` ends as the collision flag, the
later of its two writes (R116, R117, R13). -/
def drwEffect (x y n : Nibble) : Effect := fun s =>
  match s.memRead s.dataAddr n.toNat with
  | .error f => .error f
  | .ok rows =>
    let cells := s.drawnCells x y rows
    .ok ((s.setVideo (s.video.toggleAll cells)).setReg vf (collisionFlag s.video cells))

/-- The cycle of `00E0` (R115). -/
def execCls (ign : Byte) (s : State) : Host.Outcome State Fault Refusal :=
  s.runCycle (encode (.cls ign)) clsEffect

/-- The cycle of `Dxyn` (R116, R117), under the edge policy of the machine's parameters. -/
def execDrw (x y n : Nibble) (s : State) : Host.Outcome State Fault Refusal :=
  s.runCycle (encode (.drw x y n)) (drwEffect x y n)

end Sys2Proof.Machine
end

