-- ==== Sys2Proof/Machine/IndexMemory.lean ====
section
/-!
DEFINITION. The index register, loads and stores (spec/43_index_memory.md rules R105 to R112). No access changes `I`
(R105).
-/

namespace Sys2Proof.Machine

/-- `Annn` LD I, addr (R106). -/
def ldINnnEffect (nnn : Addr12) : Effect := fun s => .ok (s.setIndex (target nnn))

/-- `Fx1E` ADD I, Vx: wraps at 16 bits, no flag, no fault (R107). -/
def addIVxEffect (x : Nibble) : Effect := fun s => .ok (s.setIndex (s.index + (s.reg x).zeroExtend 16))

/-- `Fx29` LD F, Vx (R108). -/
def ldFVxEffect (x : Nibble) : Effect := fun s => .ok (s.setIndex (glyphAddr (s.reg x)))

/-- `Fx33` LD B, Vx (R109). -/
def ldBVxEffect (x : Nibble) : Effect := fun s => s.memWrite s.dataAddr (decimalDigits (s.reg x))

/-- `Fx55` LD [I], Vx (R110). -/
def ldImemVxEffect (x : Nibble) : Effect := fun s => s.memWrite s.dataAddr (s.regsUpTo x)

/-- `Fx65` LD Vx, [I] (R111). -/
def ldVxImemEffect (x : Nibble) : Effect := fun s =>
  match s.memRead s.dataAddr (x.toNat + 1) with
  | .ok bytes => .ok (s.setRegsFrom0 bytes)
  | .error f => .error f

/-- The cycle of `Annn` (R106). -/
def execLdINnn (nnn : Addr12) (s : State) : Host.Outcome State Fault Refusal :=
  s.runCycle (encode (.ldINnn nnn)) (ldINnnEffect nnn)

/-- The cycle of `Fx1E` (R107). -/
def execAddIVx (x : Nibble) (s : State) : Host.Outcome State Fault Refusal :=
  s.runCycle (encode (.addIVx x)) (addIVxEffect x)

/-- The cycle of `Fx29` (R108). -/
def execLdFVx (x : Nibble) (s : State) : Host.Outcome State Fault Refusal :=
  s.runCycle (encode (.ldFVx x)) (ldFVxEffect x)

/-- The cycle of `Fx33` (R109). -/
def execLdBVx (x : Nibble) (s : State) : Host.Outcome State Fault Refusal :=
  s.runCycle (encode (.ldBVx x)) (ldBVxEffect x)

/-- The cycle of `Fx55` (R110). -/
def execLdImemVx (x : Nibble) (s : State) : Host.Outcome State Fault Refusal :=
  s.runCycle (encode (.ldImemVx x)) (ldImemVxEffect x)

/-- The cycle of `Fx65` (R111). -/
def execLdVxImem (x : Nibble) (s : State) : Host.Outcome State Fault Refusal :=
  s.runCycle (encode (.ldVxImem x)) (ldVxImemEffect x)

end Sys2Proof.Machine
end

