-- ==== Sys2Proof/Machine/KeypadTimers.lean ====
section
/-!
DEFINITION. Keypad and timer operations (spec/45_keypad_timers.md rules R120 to R126). The timer step follows every
execute step (R75), so a timer written here is one lower when the cycle ends.
-/

namespace Sys2Proof.Machine

/-- `Ex9E` SKP Vx (R120). -/
def skpEffect (x : Nibble) : Effect := fun s =>
  match keyIndex (s.reg x) with
  | .ok k => .ok (s.skipIf (s.keyDown k))
  | .error f => .error f

/-- `ExA1` SKNP Vx (R121). -/
def sknpEffect (x : Nibble) : Effect := fun s =>
  match keyIndex (s.reg x) with
  | .ok k => .ok (s.skipIf (!s.keyDown k))
  | .error f => .error f

/-- `Fx0A` LD Vx, K: back to this instruction's own address while no key is pressed (R122). -/
def ldVxKEffect (x : Nibble) : Effect := fun s =>
  match s.lowestKey with
  | none => .ok (s.setPc (s.pc - 2))
  | some k => .ok (s.setReg x (BitVec.ofNat 8 k.val))

/-- `Fx07` LD Vx, DT (R123). -/
def ldVxDtEffect (x : Nibble) : Effect := fun s => .ok (s.setReg x s.dt)

/-- `Fx15` LD DT, Vx (R124). -/
def ldDtVxEffect (x : Nibble) : Effect := fun s => .ok (s.setDt (s.reg x))

/-- `Fx18` LD ST, Vx (R125). -/
def ldStVxEffect (x : Nibble) : Effect := fun s => .ok (s.setSt (s.reg x))

/-- The cycle of `Ex9E` (R120). -/
def execSkp (x ign : Nibble) (s : State) : Host.Outcome State Fault Refusal :=
  s.runCycle (encode (.skp x ign)) (skpEffect x)

/-- The cycle of `ExA1` (R121). -/
def execSknp (x ign : Nibble) (s : State) : Host.Outcome State Fault Refusal :=
  s.runCycle (encode (.sknp x ign)) (sknpEffect x)

/-- The cycle of `Fx07` (R123). -/
def execLdVxDt (x : Nibble) (s : State) : Host.Outcome State Fault Refusal :=
  s.runCycle (encode (.ldVxDt x)) (ldVxDtEffect x)

/-- The cycle of `Fx0A` (R122). -/
def execLdVxK (x : Nibble) (s : State) : Host.Outcome State Fault Refusal :=
  s.runCycle (encode (.ldVxK x)) (ldVxKEffect x)

/-- The cycle of `Fx15` (R124). -/
def execLdDtVx (x : Nibble) (s : State) : Host.Outcome State Fault Refusal :=
  s.runCycle (encode (.ldDtVx x)) (ldDtVxEffect x)

/-- The cycle of `Fx18` (R125). -/
def execLdStVx (x : Nibble) (s : State) : Host.Outcome State Fault Refusal :=
  s.runCycle (encode (.ldStVx x)) (ldStVxEffect x)

end Sys2Proof.Machine
end

