-- ==== Sys2Proof/Machine/Nop.lean ====
section
/-!
DEFINITION. The no-op (spec/40_cycle_and_dispatch.md rule R76; spec/30_encoding.md rule R58; spec/42_alu.md rule
R102): a whole cycle whose execute step has no effect, so `opcode`, `pc` and the timers move and nothing else.
-/

namespace Sys2Proof.Machine

/-- `NOP`: no effect (R76). -/
def nopEffect : Effect := fun s => .ok s

/-- The cycle of a no-op word of family 0 (R76). -/
def execNopS4 (ign : Byte) (sel : Nibble) (s : State) : Host.Outcome State Fault Refusal :=
  s.runCycle (encode (.nopS4 ign sel)) nopEffect

/-- The cycle of a no-op word of family 8 (R76, R102). -/
def execNopXys (x y sel : Nibble) (s : State) : Host.Outcome State Fault Refusal :=
  s.runCycle (encode (.nopXys x y sel)) nopEffect

/-- The cycle of a no-op word of family E (R76). -/
def execNopXs4 (x ign sel : Nibble) (s : State) : Host.Outcome State Fault Refusal :=
  s.runCycle (encode (.nopXs4 x ign sel)) nopEffect

/-- The cycle of a no-op word of family F (R76). -/
def execNopXs8 (x : Nibble) (sel : Byte) (s : State) : Host.Outcome State Fault Refusal :=
  s.runCycle (encode (.nopXs8 x sel)) nopEffect

end Sys2Proof.Machine
end

