-- ==== Sys2Proof/Machine/Cycle.lean ====
section
/-!
DEFINITION. The cycle (spec/40_cycle_and_dispatch.md rules R70 to R75): the fetch, the halted state, and the placing
of an instruction where the fetch reads it.
-/

namespace Sys2Proof.Machine

/-- Step 1, fetch (R71): the big-endian word at `pc`; `fetchOutOfRange` when `pc > 0xFFE`. -/
def State.fetch (s : State) : Except Fault Word :=
  if 0xFFE < s.pc.toNat then .error .fetchOutOfRange
  else .ok (wordOfBytes (s.byte s.pc.toNat) (s.byte (s.pc.toNat + 1)))

/-- One cycle on the keypad flags the state holds (R70): a halted core changes nothing (R133); a failing fetch raises
its fault with no opcode (R71); otherwise the decoded instruction runs. -/
def cycle (s : State) : Host.Outcome State Fault Refusal :=
  if s.fault.isSome then .next s
  else
    match s.fetch with
    | .error code => .next (s.raise code none)
    | .ok w => exec (decodeWord w) s

/-- `s` made ready to run the word `w` in its next cycle: the fault latch is cleared and the two bytes are stored
big-endian at `pc`; where `pc` names no two bytes of RAM (the glyph ROM, or beyond 0xFFE) the program base 0x200 takes
its place (notes/assumptions/9.md). -/
def State.placeWord (s : State) (w : Word) : State :=
  let pc := if 0x050 ≤ s.pc.toNat ∧ s.pc.toNat ≤ 0xFFE then s.pc else 0x200
  { s with fault := none, pc := pc, mem := s.mem.writeBytes pc.toNat [hiByte w, loByte w] }

end Sys2Proof.Machine
end

