-- ==== Sys2Proof/Machine/Step.lean ====
section
/-!
DEFINITION. The step: the host's keypad write, if one is still to come, and then one call of "advance one cycle"
(spec/40_cycle_and_dispatch.md rule R70; spec/10_state.md rule R20).
-/

namespace Sys2Proof.Machine

/-- One step of the machine. -/
def step (s : State) : Host.Outcome State Fault Refusal := cycle s.takeKeys

/-- `s` with the instruction whose bits are `w` stored where `step` fetches its next instruction. -/
def State.withFetchWord (s : State) (nbits w : Nat) : State := s.placeWord (BitVec.ofNat 16 (w % 2 ^ nbits))

end Sys2Proof.Machine
end

