-- ==== Sys2Proof/Machine/Ports.lean ====
section
/-!
DEFINITION. What the host can do to the block between two cycles (spec/60_exceptions.md rules R143 to R145): reset
(spec/70_reset_and_hazards.md rules R150, R151), program load (R154 to R156), the keypad write (`State.setKeypad` in
Sys2Proof/Machine/Ops.lean), and the reading of the framebuffer.
-/

namespace Sys2Proof.Machine

/-- Why a load is rejected (R155); the host is told, and nothing changes (R147). -/
inductive LoadError where
  /-- the image is longer than 3584 bytes -/
  | imageTooLarge
  /-- the image has no byte -/
  | emptyImage
  deriving DecidableEq, Repr

/-- The load operation (R154, R155): the image verbatim from 0x200 up, nothing else changed; a bad image is rejected
before a byte is copied. -/
def State.load (s : State) (image : List Byte) : Except LoadError State :=
  if image.length = 0 then .error .emptyImage
  else if 3584 < image.length then .error .imageTooLarge
  else .ok { s with mem := s.mem.writeBytes 0x200 image }

/-- Reset applied to a running or halted core (R150): every field of the Machine State at its reset value. The
parameters are those the machine was built with (R28). The two inputs stand outside the block and are not rewound: the
next random byte is a fresh one and the host's coming keypad writes still come (notes/assumptions/5.md). -/
def State.applyReset (s : State) : State :=
  { State.resetWith s.params with rndDraws := s.rndDraws, keyInput := s.keyInput }

/-- The presentation port (R143): the word of `width` bits at linear index `64 × y + x`, all ones for a lit cell, all
zeros for an unlit one. The width is the open parameter `CELL_SENTINEL_WIDTH`, so it is an argument. -/
def State.presentCell (s : State) (width : Nat) (k : Fin 2048) : BitVec width :=
  if s.cell ⟨k.val % 64, by omega⟩ ⟨k.val / 64, by omega⟩ then BitVec.allOnes width else 0

end Sys2Proof.Machine
end

