-- ==== Sys2Proof/Safety.lean ====
section
/-!
DEFINITION. The terms claims are made in: the host's moves and the states they reach (spec/60_exceptions.md rule
R145), the invariants of the Machine State (spec/10_state.md rules R15, R17, R23, R24, R29), quiescence
(spec/70_reset_and_hazards.md rule R157).
-/

namespace Sys2Proof.Machine

/-- What the driver may do, one move at a time (R145): the events `reset`, `load`, `advance` and a keypad write. -/
inductive Move where
  | reset
  | load (image : List Byte)
  | keys (k : BitVec 16)
  | advance
  deriving DecidableEq, Repr

/-- The state after a move. A rejected load leaves the state as it was (R155). -/
def applyMove (m : Move) (s : State) : State :=
  match m with
  | .reset => s.applyReset
  | .load image => match s.load image with
    | .ok s' => s'
    | .error _ => s
  | .keys k => s.setKeypad k
  | .advance => match step s with
    | .next s' => s'
    | .fault _ => s
    | .refused _ => s

/-- The state after a list of moves, the first one first. -/
def applyMoves (ms : List Move) (s : State) : State := ms.foldl (fun t m => applyMove m t) s

/-- The machine with the parameters `p` (R6): `core` is the one with the values this spec takes, and one step function
runs them all, since it reads the parameters from the state. -/
def coreWith (p : Params) : Host.Core := { core with reset := State.resetWith p }

/-- The states the driver can bring about from the reset of a machine with the parameters `p`, whatever random bytes and
keypad writes are to come. -/
def Reachable (p : Params) (s : State) : Prop :=
  ∃ (ms : List Move) (draws : Nat) (keys : List (BitVec 16)),
    s = applyMoves ms { State.resetWith p with rndDraws := draws, keyInput := keys }

/-- The memory list is canonical and names RAM addresses only, 0x050 to 0xFFF: it shadows no byte of the glyph ROM and
none lies outside the address space (R29, R30, R31). -/
def State.MemoryOk (s : State) : Prop :=
  s.mem.wf = true ∧ ∀ c ∈ s.mem, 0x050 ≤ c.1 ∧ c.1 ≤ 0xFFF

/-- The bounds of R15 and R81: `pc` never exceeds 0x10FE and no stack entry exceeds 0x1000. -/
def State.AddressesBounded (s : State) : Prop :=
  s.pc.toNat ≤ 0x10FE ∧ ∀ k : Fin 16, s.stack[k].toNat ≤ 0x1000

/-- What the fault latch records of a halted core (R24, R132): its own `pc`, and an opcode word unless it was the
fetch that faulted. -/
def State.LatchPrecise (s : State) : Prop :=
  ∀ r, s.fault = some r → r.pc = s.pc ∧ (r.opcode = none ↔ r.code = .fetchOutOfRange)

/-- The invariants together. -/
def State.Inv (s : State) : Prop := s.MemoryOk ∧ s.AddressesBounded ∧ s.LatchPrecise

/-- Quiescence (R157): no fault, and a cycle maps the state to itself for every keypad input. -/
def State.Quiescent (s : State) : Prop :=
  s.fault = none ∧ ∀ k, cycle (s.setKeypad k) = .next (s.setKeypad k)

end Sys2Proof.Machine
end

