-- ==== Sys2Proof/Certificates/Slice0/Obligations.lean ====
section
/-!
DEFINITION. The statements for the provers, from the numbered rules of spec/. First the vocabulary: what each kind of
instruction leaves unchanged, so that every statement can say its frame; then one definition per obligation, in the
order of OBLIGATIONS.json.
-/

namespace Sys2Proof.Claims

open Sys2Proof.Machine

/-! ### Vocabulary -/

/-- Every word that the mask and match select decodes to the instruction `mk` builds from its fields (R56). -/
def Selects (mask pattern : Word) (mk : Word → Instr) : Prop := ∀ w : Word, w &&& mask = pattern → decodeWord w = mk w

/-- What every completing cycle of `i` does beside its effect: the word is latched; the fault latch, the inputs and the
parameters stand as they were (R21, R20, R24, R28). Here and in every frame below, `keyInput`, `params` and `rndDraws` are
the model's own fields (log entries 2, 21 and 1, DESIGN CHOICE): that they stand is said beside what the rules say. -/
def Completed (i : Instr) (s t : State) : Prop :=
  t.opcode = encode i ∧ t.fault = s.fault ∧ t.keypad = s.keypad ∧ t.keyInput = s.keyInput ∧ t.params = s.params

/-- Both timers one lower, floored at 0 (R75). -/
def TimersTicked (s t : State) : Prop := t.dt.toNat = s.dt.toNat - 1 ∧ t.st.toNat = s.st.toNat - 1

def RegsKept (s t : State) : Prop := ∀ r, t.reg r = s.reg r

def RegsKeptBut (x : Nibble) (s t : State) : Prop := ∀ r, r ≠ x → t.reg r = s.reg r

def StackKept (s t : State) : Prop := t.sp = s.sp ∧ t.stack = s.stack

def MemKept (s t : State) : Prop := ∀ a, t.byte a = s.byte a

def VideoKept (s t : State) : Prop := ∀ px py, t.cell px py = s.cell px py

/-- The frame of an operation on general registers: everything else moves as in every cycle or not at all. -/
def RegisterFrame (i : Instr) (s t : State) : Prop :=
  Completed i s t ∧ TimersTicked s t ∧ t.pc = s.pc + 2 ∧ t.index = s.index ∧ StackKept s t ∧ MemKept s t ∧
  VideoKept s t ∧ t.rndDraws = s.rndDraws

/-- The frame of an operation that sets `pc` and nothing else. -/
def JumpFrame (i : Instr) (s t : State) : Prop :=
  Completed i s t ∧ TimersTicked s t ∧ RegsKept s t ∧ t.index = s.index ∧ StackKept s t ∧ MemKept s t ∧
  VideoKept s t ∧ t.rndDraws = s.rndDraws

/-- The frame of a call or a return: `pc`, `sp` and the stack may change. -/
def CallFrame (i : Instr) (s t : State) : Prop :=
  Completed i s t ∧ TimersTicked s t ∧ RegsKept s t ∧ t.index = s.index ∧ MemKept s t ∧ VideoKept s t ∧
  t.rndDraws = s.rndDraws

/-- The frame of an operation that sets `I` and nothing else. -/
def IndexFrame (i : Instr) (s t : State) : Prop :=
  Completed i s t ∧ TimersTicked s t ∧ t.pc = s.pc + 2 ∧ RegsKept s t ∧ StackKept s t ∧ MemKept s t ∧
  VideoKept s t ∧ t.rndDraws = s.rndDraws

/-- The frame of a store: memory apart, which its statement describes byte by byte, nothing changes. -/
def StoreFrame (i : Instr) (s t : State) : Prop :=
  Completed i s t ∧ TimersTicked s t ∧ t.pc = s.pc + 2 ∧ RegsKept s t ∧ t.index = s.index ∧ StackKept s t ∧
  VideoKept s t ∧ t.rndDraws = s.rndDraws

/-- The frame of a display operation: the framebuffer and `VF` apart. -/
def DisplayFrame (i : Instr) (s t : State) : Prop :=
  Completed i s t ∧ TimersTicked s t ∧ t.pc = s.pc + 2 ∧ RegsKeptBut 0xF s t ∧ t.index = s.index ∧ StackKept s t ∧
  MemKept s t ∧ t.rndDraws = s.rndDraws

/-- The cycle of `i` raises `c`: the next state is `s` with the fault latched, and nothing else (R132). -/
def Faults (i : Instr) (s : State) (c : Fault) : Prop :=
  exec i s = .next { s with fault := some { code := c, pc := s.pc, opcode := some (encode i) } }

/-- The fault the cycle of `i` raises in `s`, by the table of R131. -/
def faultOf (i : Instr) (s : State) : Option Fault :=
  match i with
  | .call _ => if s.sp.val = 16 then some .stackOverflow else none
  | .ret _ => if s.sp.val = 0 then some .stackUnderflow else none
  | .drw _ _ n => if 0 < n.toNat ∧ 0xFFF < s.index.toNat + n.toNat - 1 then some .memReadOutOfRange else none
  | .ldVxImem x => if 0xFFF < s.index.toNat + x.toNat then some .memReadOutOfRange else none
  | .ldBVx _ =>
    if 0xFFF < s.index.toNat + 2 then some .memWriteOutOfRange
    else if s.index.toNat ≤ 0x04F then some .glyphRomWrite else none
  | .ldImemVx x =>
    if 0xFFF < s.index.toNat + x.toNat then some .memWriteOutOfRange
    else if s.index.toNat ≤ 0x04F then some .glyphRomWrite else none
  | .skp x _ => if 0xF < (s.reg x).toNat then some .keyIndexOutOfRange else none
  | .sknp x _ => if 0xF < (s.reg x).toNat then some .keyIndexOutOfRange else none
  | _ => none

/-- `pc` after a completing cycle of `i`, by the table of R15. -/
def nextPc (i : Instr) (s : State) : Word :=
  match i with
  | .ret _ => s.stack[s.sp.val - 1]'(by have := s.sp.isLt; omega)
  | .jp nnn => BitVec.ofNat 16 nnn.toNat
  | .call nnn => BitVec.ofNat 16 nnn.toNat
  | .jpV0 nnn => BitVec.ofNat 16 ((s.reg 0).toNat + nnn.toNat)
  | .seVxKk x kk => if s.reg x = kk then s.pc + 4 else s.pc + 2
  | .sneVxKk x kk => if s.reg x = kk then s.pc + 2 else s.pc + 4
  | .seVxVy x y _ => if s.reg x = s.reg y then s.pc + 4 else s.pc + 2
  | .sneVxVy x y _ => if s.reg x = s.reg y then s.pc + 2 else s.pc + 4
  | .skp x _ => if s.keypad.getLsbD (s.reg x).toNat then s.pc + 4 else s.pc + 2
  | .sknp x _ => if s.keypad.getLsbD (s.reg x).toNat then s.pc + 2 else s.pc + 4
  | .ldVxK _ => if s.keypad = 0 then s.pc else s.pc + 2
  | _ => s.pc + 2

/-- The cycle of `i` may write the general register `r`: its destination, and `VF` where R12's table names it. -/
def writesReg (i : Instr) (r : Nibble) : Bool :=
  match i with
  | .ldVxKk x _ => r = x
  | .addVxKk x _ => r = x
  | .ldVxVy x _ => r = x
  | .or x _ => r = x
  | .and x _ => r = x
  | .xor x _ => r = x
  | .rnd x _ => r = x
  | .ldVxDt x => r = x
  | .ldVxK x => r = x
  | .addVxVy x _ => r = x || r = 0xF
  | .sub x _ => r = x || r = 0xF
  | .shr x _ => r = x || r = 0xF
  | .subn x _ => r = x || r = 0xF
  | .shl x _ => r = x || r = 0xF
  | .drw _ _ _ => r = 0xF
  | .ldVxImem x => r.toNat ≤ x.toNat
  | _ => false

/-- A set bit of the sprite of `n` rows at `I`, drawn from the origin `(x0, y0)`, asks for the pixel `(px, py)`, before
any edge policy; bit 7 of a row is its column 0 (R116). -/
def SpriteBit (s : State) (n : Nibble) (x0 y0 px py : Nat) : Prop :=
  ∃ r c, r < n.toNat ∧ c < 8 ∧ (s.byte (s.dataAddr + r)).getLsbD (7 - c) = true ∧ px = x0 + c ∧ py = y0 + r

/-- The cell `(px, py)` is toggled by `Dxyn` under per-pixel wrapping (R116). -/
def WrapHit (s : State) (x y n : Nibble) (px : Fin 64) (py : Fin 32) : Prop :=
  ∃ qx qy, SpriteBit s n ((s.reg x).toNat % 64) ((s.reg y).toNat % 32) qx qy ∧ qx % 64 = px.val ∧ qy % 32 = py.val

/-- The cell `(px, py)` is toggled by `Dxyn` under clipping (R117). -/
def ClipHit (s : State) (x y n : Nibble) (px : Fin 64) (py : Fin 32) : Prop :=
  SpriteBit s n ((s.reg x).toNat % 64) ((s.reg y).toNat % 32) px.val py.val

/-- The values of R27's table, for a machine whose parameter `GLYPH_ROM` is `p.glyphRom`. -/
def HasResetValues (p : Params) (s : State) : Prop :=
  (∀ a (h : a ≤ 0x04F), s.byte a = p.glyphRom[a]) ∧ (∀ a, 0x050 ≤ a → a ≤ 0xFFF → s.byte a = 0) ∧
  (∀ x, s.reg x = 0) ∧ s.index = 0 ∧ s.pc = 0x200 ∧ (∀ k : Fin 16, s.stack[k] = 0) ∧ s.sp.val = 0 ∧ s.dt = 0 ∧
  s.st = 0 ∧ (∀ px py, s.cell px py = false) ∧ (∀ k, s.keyDown k = false) ∧ s.opcode = 0 ∧ s.fault = none

/-- A state up to the opcode it has latched, in the latch of `opcode` and in the fault record (R57, R21, R24). -/
def upToOpcode (s : State) : State :=
  { s with opcode := 0, fault := s.fault.map fun r => { r with opcode := r.opcode.map fun _ => 0 } }

end Sys2Proof.Claims

open Sys2Proof Sys2Proof.Machine Sys2Proof.Claims

/-! ### Encoding and decoding -/

/-- Decoding an encoded well-formed instruction gives it back, as a word and as bytes in front of any others
(R50, R51, R54, R55). -/
def Obligations.DecodeOfEncode : Prop :=
  ∀ i : Instr, i.WellFormed →
    decodeWord (encode i) = i ∧ ∀ rest, decode (encodeBytes i ++ rest) = .ok (i, rest)

/-- Every one of the 65536 words decodes to a well-formed instruction that keeps every bit of it (R55, R59). -/
def Obligations.EncodeOfDecode : Prop :=
  ∀ w : Word, (decodeWord w).WellFormed ∧ encode (decodeWord w) = w

/-- The opcode map (R56): a word selects the row whose mask and match it meets; the rows are pairwise disjoint; the
words none selects are the no-ops. -/
def Obligations.OpcodeMapSelects : Prop :=
  (∀ row ∈ opcodeMap, ∀ w : Word, w &&& row.mask = row.pattern ↔ (decodeWord w).op = row.op) ∧
  (∀ row ∈ opcodeMap, ∀ row' ∈ opcodeMap, row ≠ row' → ∀ w : Word,
    w &&& row.mask = row.pattern → w &&& row'.mask ≠ row'.pattern) ∧
  (∀ w : Word, (decodeWord w).op = .nop ↔ ∀ row ∈ opcodeMap, w &&& row.mask ≠ row.pattern)

/-- The no-op words (R58): a family with a secondary dispatch and a selector that is not registered. -/
def Obligations.NopWords : Prop :=
  ∀ w : Word, (decodeWord w).op = .nop ↔
    (family w = 0x0 ∧ fieldN w ≠ 0x0 ∧ fieldN w ≠ 0xE) ∨
    (family w = 0x8 ∧ 0x8 ≤ (fieldN w).toNat ∧ fieldN w ≠ 0xE) ∨
    (family w = 0xE ∧ fieldN w ≠ 0x1 ∧ fieldN w ≠ 0xE) ∨
    (family w = 0xF ∧ fieldKk w ∉ [0x07, 0x0A, 0x15, 0x18, 0x1E, 0x29, 0x33, 0x55, 0x65])

/-- Alias words (R57): an instruction acts exactly as its canonical form does, but for the word latched. -/
def Obligations.AliasActsAsCanonical : Prop :=
  ∀ (i : Instr) (s : State), ∃ t u, exec i s = .next t ∧ exec i.canonical s = .next u ∧ upToOpcode t = upToOpcode u

/-- A few words of the decode vectors (spec/95_test_vectors.md 2.7), one per family (R55). -/
def Obligations.SampleWordsDecode : Prop :=
  decodeWord 0x00E0 = .cls 0x0E ∧ decodeWord 0x0ABE = .ret 0xAB ∧ decodeWord 0x0ABC = .nopS4 0xAB 0xC ∧
  decodeWord 0x1234 = .jp 0x234 ∧ decodeWord 0x2300 = .call 0x300 ∧ decodeWord 0x3A05 = .seVxKk 0xA 0x05 ∧
  decodeWord 0x4A05 = .sneVxKk 0xA 0x05 ∧ decodeWord 0x5AB7 = .seVxVy 0xA 0xB 0x7 ∧ decodeWord 0x6A7F = .ldVxKk 0xA 0x7F ∧
  decodeWord 0x7105 = .addVxKk 0x1 0x05 ∧ decodeWord 0x8AB7 = .subn 0xA 0xB ∧ decodeWord 0x8ABE = .shl 0xA 0xB ∧
  decodeWord 0x9AB1 = .sneVxVy 0xA 0xB 0x1 ∧ decodeWord 0xA123 = .ldINnn 0x123 ∧ decodeWord 0xB300 = .jpV0 0x300 ∧
  decodeWord 0xC10F = .rnd 0x1 0x0F ∧ decodeWord 0xD015 = .drw 0x0 0x1 0x5 ∧ decodeWord 0xEAA1 = .sknp 0xA 0xA ∧
  decodeWord 0xFA1E = .addIVx 0xA ∧ decodeWord 0xFA75 = .nopXs8 0xA 0x75

/-! ### The cycle -/

/-- A cycle runs the decoded instruction: where the two bytes at `pc` decode to `i`, the cycle is `exec i` at the state,
and latching, advancing and the timer step are inside `exec` (R70 to R75). The last two clauses, which say that a STEP is
`exec i` at `s.takeKeys` and what `takeKeys` does, are THE MODEL'S CHOICE and no rule of the spec: that the host's coming
keypad writes are a list of which a step takes the first before its cycle is log entry 2 (notes/assumptions/2.md, DESIGN
CHOICE). -/
def Obligations.StepRunsDecodedInstruction : Prop :=
  ∀ (s : State) (i : Instr) (rest : List Byte), s.fault = none → s.pc.toNat ≤ 0xFFE →
    decode (s.bytes s.pc.toNat 2) = .ok (i, rest) →
    i.WellFormed ∧ rest = [] ∧ cycle s = exec i s ∧ step s = exec i s.takeKeys ∧
    s.takeKeys = { s with keypad := s.keyInput.headD s.keypad, keyInput := s.keyInput.tail }

/-- Fetch (R71): the big-endian word at `pc`, even or odd, becomes `opcode`; a `pc` above 0xFFE faults with no word
and changes nothing else. -/
def Obligations.FetchReadsBigEndianWord : Prop :=
  (∀ s : State, s.pc.toNat ≤ 0xFFE → ∃ w, s.fetch = .ok w ∧ w.extractLsb' 8 8 = s.byte s.pc.toNat ∧
    w.extractLsb' 0 8 = s.byte (s.pc.toNat + 1) ∧
    (s.fault = none → ∀ t, cycle s = .next t → t.fault = none → t.opcode = w)) ∧
  (∀ s : State, s.fault = none → 0xFFE < s.pc.toNat →
    cycle s = .next { s with fault := some { code := .fetchOutOfRange, pc := s.pc, opcode := none } })

/-- The halted state (R133): a cycle changes nothing; only reset clears the latch, and the host's other moves leave it
standing. The clause `step s = .next s.takeKeys` is THE MODEL'S CHOICE and not R133's: that a step takes the host's next
keypad write before its cycle, halted or not, is log entry 2 (notes/assumptions/2.md, DESIGN CHOICE). -/
def Obligations.HaltedCoreUnchanged : Prop :=
  ∀ s : State, s.fault ≠ none →
    cycle s = .next s ∧ step s = .next s.takeKeys ∧ s.applyReset.fault = none ∧
    ∀ m : Move, m ≠ .reset → (applyMove m s).fault = s.fault

/-- Raising a fault (R132): a cycle that ends faulted has committed nothing, and the record names the instruction. -/
def Obligations.FaultCommitsNothing : Prop :=
  ∀ (s t : State) (r : FaultRecord), s.fault = none → cycle s = .next t → t.fault = some r →
    t = { s with fault := some r } ∧ r.pc = s.pc ∧
    ((s.fetch = .error .fetchOutOfRange ∧ r.code = .fetchOutOfRange ∧ r.opcode = none) ∨
      ∃ w, s.fetch = .ok w ∧ r.opcode = some w)

/-- Which faults are raised and when (R131): exactly as its table says, with the numbers it gives the codes. -/
def Obligations.FaultsExactlyWhenTabled : Prop :=
  (∀ (i : Instr) (s t : State), s.fault = none → exec i s = .next t →
    t.fault = (faultOf i s).map fun c => { code := c, pc := s.pc, opcode := some (encode i) }) ∧
  (∀ s t : State, s.fault = none → cycle s = .next t →
    ((∃ r, t.fault = some r ∧ r.code = .fetchOutOfRange) ↔ 0xFFE < s.pc.toNat)) ∧
  [Fault.fetchOutOfRange, .stackOverflow, .stackUnderflow, .memReadOutOfRange, .memWriteOutOfRange, .glyphRomWrite,
    .keyIndexOutOfRange].map Fault.number = [1, 2, 3, 4, 5, 6, 7]

/-- The timer step (R75): once per cycle that does not fault, after the execute step, whichever operation ran; a cycle
that faults moves no timer. -/
def Obligations.TimersTickAfterExecute : Prop :=
  ∀ (s t : State) (w : Word), s.fault = none → s.fetch = .ok w → cycle s = .next t →
    (t.fault = none →
      t.dt.toNat = (match decodeWord w with | .ldDtVx x => s.reg x | _ => s.dt).toNat - 1 ∧
      t.st.toNat = (match decodeWord w with | .ldStVx x => s.reg x | _ => s.st).toNat - 1) ∧
    (t.fault ≠ none → t.dt = s.dt ∧ t.st = s.st)

/-- The timers count cycles (R126): over `n` steps that complete and set no timer, each is `n` lower, floored at 0,
whatever the host writes to the keypad in between. -/
def Obligations.TimersCountCycles : Prop :=
  ∀ (n : Nat) (f : Nat → State),
    (∀ k, k < n → step (f k) = .next (f (k + 1)) ∧ (f k).fault = none ∧ (f (k + 1)).fault = none ∧
      ∃ w, (f k).fetch = .ok w ∧ (decodeWord w).op ∉ [Op.ldDtVx, .ldStVx]) →
    (f n).dt.toNat = (f 0).dt.toNat - n ∧ (f n).st.toNat = (f 0).st.toNat - n

/-- Every step of every state answers a next state: no word is illegal and a fault is latched (R59, R132, R133). -/
def Obligations.EveryStepAnswersNext : Prop :=
  (∀ s : State, ∃ t, step s = .next t) ∧ ∀ (i : Instr) (s : State), ∃ t, exec i s = .next t

/-- What a cycle depends on (R78): the keypad flags matter only for `Ex9E`, `ExA1` and `Fx0A`, the random byte only
for `Cxkk`. The last clause, that the keypad writes still to come matter for none, is about the model's own field
`keyInput` (log entry 2, DESIGN CHOICE), as the count `rndDraws` is (log entry 1, DESIGN CHOICE). -/
def Obligations.InputsMatterOnlyWhereRead : Prop :=
  ∀ (i : Instr) (s t : State), exec i s = .next t →
    (i.op ∉ [Op.skp, .sknp, .ldVxK] → ∀ k, exec i (s.setKeypad k) = .next (t.setKeypad k)) ∧
    (i.op ≠ .rnd → ∀ d, exec i { s with rndDraws := d } = .next { t with rndDraws := d }) ∧
    (∀ q, exec i { s with keyInput := q } = .next { t with keyInput := q })

/-! ### Invariants -/

/-- The invariant holds at reset, whatever the parameters of the machine. -/
def Obligations.ResetMeetsInvariant : Prop := State.reset.Inv ∧ ∀ p : Params, (State.resetWith p).Inv

/-- Every step keeps the invariant: memory canonical and within RAM, so the glyph ROM intact; `pc` and the stack
entries within the bounds of R15 and R81; a precise fault latch. -/
def Obligations.StepKeepsInvariant : Prop := ∀ s t : State, s.Inv → step s = .next t → t.Inv

/-- The invariants of R29, in every state that cycles, loads, keypad writes and resets bring about from the reset of a
machine with the parameters `p`. The clause `sp ≤ 16` holds by the type of the field, `Fin 17` (log entry 13,
notes/assumptions/13.md, DEDUCED); that the parameters stay `p` is the model's own (log entry 21,
notes/assumptions/21.md, DESIGN CHOICE). -/
def Obligations.ReachableStatesMeetInvariant : Prop :=
  ∀ (p : Params) (s : State), Reachable p s →
    s.Inv ∧ s.sp.val ≤ 16 ∧ (∀ a (h : a ≤ 0x04F), s.byte a = p.glyphRom[a]) ∧ s.params = p ∧
    (s.fault ≠ none → cycle s = .next s)

/-- The glyph ROM is never altered: by no move of the host, reset among them, in any state whatever (R31, R34). -/
def Obligations.GlyphRomNeverAltered : Prop :=
  ∀ (m : Move) (s : State) (a : Nat), a ≤ 0x04F → (applyMove m s).byte a = s.byte a

/-- What only some operations write: memory `Fx33`, `Fx55` (R37); `I` `Annn`, `Fx1E`, `Fx29` (R14); `sp` and the stack
`2nnn`, `00EE` (R16, R17); the framebuffer `00E0`, `Dxyn` (R19); the keypad none (R20). -/
def Obligations.OnlyTheirWritersWrite : Prop :=
  ∀ (i : Instr) (s t : State), exec i s = .next t →
    (i.op ∉ [Op.ldBVx, .ldImemVx] → MemKept s t) ∧ (i.op ∉ [Op.ldINnn, .addIVx, .ldFVx] → t.index = s.index) ∧
    (i.op ∉ [Op.call, .ret] → t.sp = s.sp) ∧ (i.op ≠ .call → t.stack = s.stack) ∧
    (i.op ∉ [Op.cls, .drw] → VideoKept s t) ∧ t.keypad = s.keypad ∧ t.keyInput = s.keyInput

/-- Which general registers an instruction writes: its destination, and `VF` only where R12 names a flag (R11, R12). -/
def Obligations.OnlyNamedRegistersChange : Prop :=
  ∀ (i : Instr) (s t : State) (r : Nibble), exec i s = .next t → writesReg i r = false → t.reg r = s.reg r

/-- How `pc` changes (R15): the table of new values, for every instruction that completes, and the largest value it can
take from a `pc` that fetches. -/
def Obligations.PcFollowsTable : Prop :=
  ∀ (i : Instr) (s t : State), s.fault = none → exec i s = .next t → t.fault = none →
    t.pc = nextPc i s ∧ (s.pc.toNat ≤ 0xFFE → (∀ k : Fin 16, s.stack[k].toNat ≤ 0x1000) → t.pc.toNat ≤ 0x10FE)

/-! ### Reset, load, ports -/

/-- The values reset leaves, field by field (R27), for every value of the parameter `GLYPH_ROM` and for the one this spec
takes. -/
def Obligations.ResetValues : Prop :=
  (∀ p : Params, HasResetValues p (State.resetWith p)) ∧ HasResetValues paramsTaken State.reset

/-- Reset from any state, halted included, leaves the reset values in every field of the Machine State (R150, R151), the
glyph ROM at the machine's own parameter. -/
def Obligations.ResetFromAnyState : Prop :=
  ∀ s : State, HasResetValues s.params s.applyReset ∧ HasResetValues s.params (applyMove .reset s)

/-- Load (R154): the image verbatim from 0x200 up; nothing else changes. -/
def Obligations.LoadCopiesImage : Prop :=
  ∀ (s : State) (image : List Byte), 1 ≤ image.length → image.length ≤ 3584 →
    ∃ t, s.load image = .ok t ∧ (∀ k (h : k < image.length), t.byte (0x200 + k) = image[k]) ∧
      (∀ a, a < 0x200 ∨ 0x200 + image.length ≤ a → t.byte a = s.byte a) ∧ t = { s with mem := t.mem }

/-- Load errors (R155): an empty image and one above 3584 bytes are rejected, each by its name, and nothing changes. -/
def Obligations.LoadRejectsBadImage : Prop :=
  ∀ (s : State) (image : List Byte),
    (image.length = 0 → s.load image = .error .emptyImage ∧ applyMove (.load image) s = s) ∧
    (3584 < image.length → s.load image = .error .imageTooLarge ∧ applyMove (.load image) s = s) ∧
    (image.length = 3584 → ∃ t, s.load image = .ok t)

/-- Repeated load (R156): loading an image again changes no byte, and where memory is canonical no state. -/
def Obligations.LoadTwiceIsLoadOnce : Prop :=
  ∀ (s t : State) (image : List Byte), s.load image = .ok t →
    ∃ u, t.load image = .ok u ∧ (∀ a, u.byte a = t.byte a) ∧ (s.mem.wf = true → u = t)

/-- `MemRead` (R33). -/
def Obligations.MemReadPrimitive : Prop :=
  ∀ (s : State) (addr n : Nat),
    (0 < n → 0xFFF < addr + n - 1 → s.memRead addr n = .error .memReadOutOfRange) ∧
    (n = 0 → s.memRead addr n = .ok []) ∧
    (addr + n - 1 ≤ 0xFFF → ∃ bytes, s.memRead addr n = .ok bytes ∧ bytes.length = n ∧
      ∀ k, k < n → bytes[k]? = some (s.byte (addr + k)))

/-- `MemWrite` (R34): both checks before a byte is written, and the canonical form kept. -/
def Obligations.MemWritePrimitive : Prop :=
  ∀ (s : State) (addr : Nat) (bytes : List Byte), 1 ≤ bytes.length →
    (0xFFF < addr + bytes.length - 1 → s.memWrite addr bytes = .error .memWriteOutOfRange) ∧
    (addr + bytes.length - 1 ≤ 0xFFF → addr ≤ 0x04F → s.memWrite addr bytes = .error .glyphRomWrite) ∧
    (addr + bytes.length - 1 ≤ 0xFFF → 0x050 ≤ addr → ∃ t, s.memWrite addr bytes = .ok t ∧
      (∀ k (h : k < bytes.length), t.byte (addr + k) = bytes[k]) ∧
      (∀ a, a < addr ∨ addr + bytes.length ≤ a → t.byte a = s.byte a) ∧ t = { s with mem := t.mem } ∧
      (s.mem.wf = true → t.mem.wf = true))

/-- The presentation port (R143): cell `(px, py)` stands at linear index `64 × py + px`, all ones or all zeros. -/
def Obligations.PresentationShowsCells : Prop :=
  ∀ (s : State) (width : Nat) (px : Fin 64) (py : Fin 32),
    s.presentCell width ⟨64 * py.val + px.val, by omega⟩ = if s.cell px py then BitVec.allOnes width else 0

/-- A store is seen by the next fetch of its bytes (R44), odd addresses included. -/
def Obligations.StoreSeenByNextFetch : Prop :=
  ∀ (s t u : State) (x k : Nibble), s.fault = none → exec (.ldImemVx x) s = .next t → t.fault = none →
    u.mem = t.mem → k.toNat + 1 ≤ x.toNat → u.pc.toNat = s.dataAddr + k.toNat →
    u.fetch = .ok (wordOfBytes (s.reg k) (s.reg (k + 1)))

/-- Quiescence (R157): a jump to its own address with both timers at 0 leads to a state every cycle maps to itself. -/
def Obligations.SelfJumpBecomesQuiescent : Prop :=
  ∀ (s : State) (nnn : Addr12), s.fault = none → s.fetch = .ok (encode (.jp nnn)) → s.pc.toNat = nnn.toNat →
    s.dt = 0 → s.st = 0 → ∃ t, cycle s = .next t ∧ t.Quiescent

/-! ### Control transfer -/

/-- `00EE` (R81). -/
def Obligations.ReturnPopsStack : Prop :=
  Selects 0xF00F 0x000E (fun w => .ret (fieldMid w)) ∧
  (∀ (ign : Byte) (s : State), s.sp.val ≠ 0 → ∃ t, exec (.ret ign) s = .next t ∧ t.sp.val = s.sp.val - 1 ∧
    t.pc = s.stack[s.sp.val - 1]'(by have := s.sp.isLt; omega) ∧ t.stack = s.stack ∧ CallFrame (.ret ign) s t) ∧
  (∀ (ign : Byte) (s : State), s.sp.val = 0 → Faults (.ret ign) s .stackUnderflow)

/-- `1nnn` (R82). -/
def Obligations.JumpSetsPc : Prop :=
  Selects 0xF000 0x1000 (fun w => .jp (fieldNnn w)) ∧
  ∀ (nnn : Addr12) (s : State), ∃ t, exec (.jp nnn) s = .next t ∧ t.pc.toNat = nnn.toNat ∧ JumpFrame (.jp nnn) s t

/-- `2nnn` (R83). -/
def Obligations.CallPushesReturnAddress : Prop :=
  Selects 0xF000 0x2000 (fun w => .call (fieldNnn w)) ∧
  (∀ (nnn : Addr12) (s : State) (h : s.sp.val < 16), ∃ t, exec (.call nnn) s = .next t ∧
    t.stack[s.sp.val] = s.pc + 2 ∧ (∀ k : Fin 16, k.val ≠ s.sp.val → t.stack[k] = s.stack[k]) ∧
    t.sp.val = s.sp.val + 1 ∧ t.pc.toNat = nnn.toNat ∧ CallFrame (.call nnn) s t) ∧
  (∀ (nnn : Addr12) (s : State), s.sp.val = 16 → Faults (.call nnn) s .stackOverflow)

/-- Stack discipline (R89): a call, then anything that restores `sp` and the call's own entry, then a return, resumes
at the address after the call. -/
def Obligations.CallThenReturnResumes : Prop :=
  ∀ (s t u : State) (nnn : Addr12) (ign : Byte) (h : s.sp.val < 16), exec (.call nnn) s = .next t → u.sp = t.sp →
    u.stack[s.sp.val] = t.stack[s.sp.val] →
    ∃ v, exec (.ret ign) u = .next v ∧ v.pc = s.pc + 2 ∧ v.sp = s.sp ∧ v.fault = u.fault

/-- `3xkk` and `4xkk` (R84, R85). -/
def Obligations.SkipOnImmediate : Prop :=
  Selects 0xF000 0x3000 (fun w => .seVxKk (fieldX w) (fieldKk w)) ∧
  Selects 0xF000 0x4000 (fun w => .sneVxKk (fieldX w) (fieldKk w)) ∧
  ∀ (x : Nibble) (kk : Byte) (s : State),
    (∃ t, exec (.seVxKk x kk) s = .next t ∧ t.pc = (if s.reg x = kk then s.pc + 2 + 2 else s.pc + 2) ∧
      JumpFrame (.seVxKk x kk) s t) ∧
    (∃ t, exec (.sneVxKk x kk) s = .next t ∧ t.pc = (if s.reg x ≠ kk then s.pc + 2 + 2 else s.pc + 2) ∧
      JumpFrame (.sneVxKk x kk) s t)

/-- `5xy0` and `9xy0` (R86, R87). -/
def Obligations.SkipOnRegisters : Prop :=
  Selects 0xF000 0x5000 (fun w => .seVxVy (fieldX w) (fieldY w) (fieldN w)) ∧
  Selects 0xF000 0x9000 (fun w => .sneVxVy (fieldX w) (fieldY w) (fieldN w)) ∧
  ∀ (x y ign : Nibble) (s : State),
    (∃ t, exec (.seVxVy x y ign) s = .next t ∧ t.pc = (if s.reg x = s.reg y then s.pc + 2 + 2 else s.pc + 2) ∧
      JumpFrame (.seVxVy x y ign) s t) ∧
    (∃ t, exec (.sneVxVy x y ign) s = .next t ∧ t.pc = (if s.reg x ≠ s.reg y then s.pc + 2 + 2 else s.pc + 2) ∧
      JumpFrame (.sneVxVy x y ign) s t)

/-- `Bnnn` (R88). -/
def Obligations.IndexedJumpAddsV0 : Prop :=
  Selects 0xF000 0xB000 (fun w => .jpV0 (fieldNnn w)) ∧
  ∀ (nnn : Addr12) (s : State), ∃ t, exec (.jpV0 nnn) s = .next t ∧ t.pc.toNat = (s.reg 0).toNat + nnn.toNat ∧
    JumpFrame (.jpV0 nnn) s t

/-! ### Register and arithmetic operations -/

/-- `6xkk` and `7xkk` (R91, R92). -/
def Obligations.ImmediateLoadAndAdd : Prop :=
  Selects 0xF000 0x6000 (fun w => .ldVxKk (fieldX w) (fieldKk w)) ∧
  Selects 0xF000 0x7000 (fun w => .addVxKk (fieldX w) (fieldKk w)) ∧
  ∀ (x : Nibble) (kk : Byte) (s : State),
    (∃ t, exec (.ldVxKk x kk) s = .next t ∧ t.reg x = kk ∧ RegsKeptBut x s t ∧ RegisterFrame (.ldVxKk x kk) s t) ∧
    (∃ t, exec (.addVxKk x kk) s = .next t ∧ (t.reg x).toNat = ((s.reg x).toNat + kk.toNat) % 256 ∧
      RegsKeptBut x s t ∧ RegisterFrame (.addVxKk x kk) s t)

/-- `8xy0` to `8xy3` (R93 to R96). -/
def Obligations.CopyAndLogic : Prop :=
  Selects 0xF00F 0x8000 (fun w => .ldVxVy (fieldX w) (fieldY w)) ∧
  Selects 0xF00F 0x8001 (fun w => .or (fieldX w) (fieldY w)) ∧
  Selects 0xF00F 0x8002 (fun w => .and (fieldX w) (fieldY w)) ∧
  Selects 0xF00F 0x8003 (fun w => .xor (fieldX w) (fieldY w)) ∧
  ∀ (x y : Nibble) (s : State),
    (∃ t, exec (.ldVxVy x y) s = .next t ∧ t.reg x = s.reg y ∧ RegsKeptBut x s t ∧ RegisterFrame (.ldVxVy x y) s t) ∧
    (∃ t, exec (.or x y) s = .next t ∧
      (∀ b, b < 8 → (t.reg x).getLsbD b = ((s.reg x).getLsbD b || (s.reg y).getLsbD b)) ∧
      RegsKeptBut x s t ∧ RegisterFrame (.or x y) s t) ∧
    (∃ t, exec (.and x y) s = .next t ∧
      (∀ b, b < 8 → (t.reg x).getLsbD b = ((s.reg x).getLsbD b && (s.reg y).getLsbD b)) ∧
      RegsKeptBut x s t ∧ RegisterFrame (.and x y) s t) ∧
    (∃ t, exec (.xor x y) s = .next t ∧
      (∀ b, b < 8 → (t.reg x).getLsbD b = ((s.reg x).getLsbD b ^^ (s.reg y).getLsbD b)) ∧
      RegsKeptBut x s t ∧ RegisterFrame (.xor x y) s t)

/-- `8xy4` (R97): the sum modulo 256, then the carry in `VF`, which wins when `x = 0xF`. -/
def Obligations.AddSetsCarry : Prop :=
  Selects 0xF00F 0x8004 (fun w => .addVxVy (fieldX w) (fieldY w)) ∧
  ∀ (x y : Nibble) (s : State), ∃ t, exec (.addVxVy x y) s = .next t ∧
    (t.reg 0xF).toNat = (if (s.reg x).toNat + (s.reg y).toNat > 255 then 1 else 0) ∧
    (x ≠ 0xF → (t.reg x).toNat = ((s.reg x).toNat + (s.reg y).toNat) % 256) ∧
    (∀ r, r ≠ x → r ≠ 0xF → t.reg r = s.reg r) ∧ RegisterFrame (.addVxVy x y) s t

/-- `8xy5` and `8xy7` (R98, R100): the difference modulo 256, then the strict comparison in `VF`, which wins when
`x = 0xF`. -/
def Obligations.SubtractSetsStrictFlag : Prop :=
  Selects 0xF00F 0x8005 (fun w => .sub (fieldX w) (fieldY w)) ∧
  Selects 0xF00F 0x8007 (fun w => .subn (fieldX w) (fieldY w)) ∧
  ∀ (x y : Nibble) (s : State),
    (∃ t, exec (.sub x y) s = .next t ∧
      (t.reg 0xF).toNat = (if (s.reg x).toNat > (s.reg y).toNat then 1 else 0) ∧
      (x ≠ 0xF → (t.reg x).toNat = (256 + (s.reg x).toNat - (s.reg y).toNat) % 256) ∧
      (∀ r, r ≠ x → r ≠ 0xF → t.reg r = s.reg r) ∧ RegisterFrame (.sub x y) s t) ∧
    (∃ t, exec (.subn x y) s = .next t ∧
      (t.reg 0xF).toNat = (if (s.reg y).toNat > (s.reg x).toNat then 1 else 0) ∧
      (x ≠ 0xF → (t.reg x).toNat = (256 + (s.reg y).toNat - (s.reg x).toNat) % 256) ∧
      (∀ r, r ≠ x → r ≠ 0xF → t.reg r = s.reg r) ∧ RegisterFrame (.subn x y) s t)

/-- `8xy6` and `8xyE` (R99, R101), any `y`: the bit shifted out in `VF`, then the shifted value, which wins when
`x = 0xF`. -/
def Obligations.ShiftInPlace : Prop :=
  Selects 0xF00F 0x8006 (fun w => .shr (fieldX w) (fieldY w)) ∧
  Selects 0xF00F 0x800E (fun w => .shl (fieldX w) (fieldY w)) ∧
  ∀ (x y : Nibble) (s : State),
    (∃ t, exec (.shr x y) s = .next t ∧ (t.reg x).toNat = (s.reg x).toNat / 2 ∧
      (x ≠ 0xF → (t.reg 0xF).toNat = (s.reg x).toNat % 2) ∧
      (∀ r, r ≠ x → r ≠ 0xF → t.reg r = s.reg r) ∧ RegisterFrame (.shr x y) s t) ∧
    (∃ t, exec (.shl x y) s = .next t ∧ (t.reg x).toNat = (s.reg x).toNat * 2 % 256 ∧
      (x ≠ 0xF → (t.reg 0xF).toNat = (s.reg x).toNat / 128) ∧
      (∀ r, r ≠ x → r ≠ 0xF → t.reg r = s.reg r) ∧ RegisterFrame (.shl x y) s t)

/-- `Cxkk` (R103): whatever byte is drawn, ANDed with `kk`; every result the mask admits is some draw's. The byte is a
free value (`Config.rnd`) and the count of draws is the model's own field (notes/assumptions/1.md): the statement holds
whatever they are. -/
def Obligations.RandomByteIsMasked : Prop :=
  Selects 0xF000 0xC000 (fun w => .rnd (fieldX w) (fieldKk w)) ∧
  (∀ (x : Nibble) (kk : Byte) (s : State), ∃ t, exec (.rnd x kk) s = .next t ∧
    t.reg x = maskedDraw (Config.rnd s.rndDraws) kk ∧ RegsKeptBut x s t ∧ Completed (.rnd x kk) s t ∧
    TimersTicked s t ∧ t.pc = s.pc + 2 ∧ t.index = s.index ∧ StackKept s t ∧ MemKept s t ∧ VideoKept s t ∧
    t.rndDraws = s.rndDraws + 1) ∧
  (∀ rnd kk : Byte, ∀ b, b < 8 → (maskedDraw rnd kk).getLsbD b = (rnd.getLsbD b && kk.getLsbD b)) ∧
  (∀ kk r : Byte, r &&& ~~~kk = 0 ↔ ∃ rnd, maskedDraw rnd kk = r)

/-! ### Index register, loads and stores -/

/-- `Annn` and `Fx1E` (R106, R107). -/
def Obligations.IndexLoadAndAdd : Prop :=
  Selects 0xF000 0xA000 (fun w => .ldINnn (fieldNnn w)) ∧ Selects 0xF0FF 0xF01E (fun w => .addIVx (fieldX w)) ∧
  (∀ (nnn : Addr12) (s : State), ∃ t, exec (.ldINnn nnn) s = .next t ∧ t.index.toNat = nnn.toNat ∧
    IndexFrame (.ldINnn nnn) s t) ∧
  (∀ (x : Nibble) (s : State), ∃ t, exec (.addIVx x) s = .next t ∧
    t.index.toNat = (s.index.toNat + (s.reg x).toNat) % 65536 ∧ IndexFrame (.addIVx x) s t)

/-- `Fx29` (R108): five times the whole 8-bit value. -/
def Obligations.GlyphAddress : Prop :=
  Selects 0xF0FF 0xF029 (fun w => .ldFVx (fieldX w)) ∧
  ∀ (x : Nibble) (s : State), ∃ t, exec (.ldFVx x) s = .next t ∧ t.index.toNat = 5 * (s.reg x).toNat ∧
    IndexFrame (.ldFVx x) s t

/-- `Fx33` (R109). -/
def Obligations.DecimalDigitsStored : Prop :=
  Selects 0xF0FF 0xF033 (fun w => .ldBVx (fieldX w)) ∧
  (∀ (x : Nibble) (s : State), 0x050 ≤ s.dataAddr → s.dataAddr + 2 ≤ 0xFFF → ∃ t, exec (.ldBVx x) s = .next t ∧
    (t.byte s.dataAddr).toNat = (s.reg x).toNat / 100 ∧
    (t.byte (s.dataAddr + 1)).toNat = (s.reg x).toNat / 10 % 10 ∧
    (t.byte (s.dataAddr + 2)).toNat = (s.reg x).toNat % 10 ∧
    (∀ a, a < s.dataAddr ∨ s.dataAddr + 3 ≤ a → t.byte a = s.byte a) ∧ StoreFrame (.ldBVx x) s t) ∧
  (∀ (x : Nibble) (s : State), 0xFFF < s.dataAddr + 2 → Faults (.ldBVx x) s .memWriteOutOfRange) ∧
  (∀ (x : Nibble) (s : State), s.dataAddr ≤ 0x04F → Faults (.ldBVx x) s .glyphRomWrite)

/-- `Fx55` (R110). -/
def Obligations.RegistersStored : Prop :=
  Selects 0xF0FF 0xF055 (fun w => .ldImemVx (fieldX w)) ∧
  (∀ (x : Nibble) (s : State), 0x050 ≤ s.dataAddr → s.dataAddr + x.toNat ≤ 0xFFF →
    ∃ t, exec (.ldImemVx x) s = .next t ∧
    (∀ k : Nibble, k.toNat ≤ x.toNat → t.byte (s.dataAddr + k.toNat) = s.reg k) ∧
    (∀ a, a < s.dataAddr ∨ s.dataAddr + x.toNat + 1 ≤ a → t.byte a = s.byte a) ∧
    StoreFrame (.ldImemVx x) s t) ∧
  (∀ (x : Nibble) (s : State), 0xFFF < s.dataAddr + x.toNat → Faults (.ldImemVx x) s .memWriteOutOfRange) ∧
  (∀ (x : Nibble) (s : State), s.dataAddr ≤ 0x04F → Faults (.ldImemVx x) s .glyphRomWrite)

/-- `Fx65` (R111). -/
def Obligations.RegistersLoaded : Prop :=
  Selects 0xF0FF 0xF065 (fun w => .ldVxImem (fieldX w)) ∧
  (∀ (x : Nibble) (s : State), s.dataAddr + x.toNat ≤ 0xFFF → ∃ t, exec (.ldVxImem x) s = .next t ∧
    (∀ r : Nibble, t.reg r = if r.toNat ≤ x.toNat then s.byte (s.dataAddr + r.toNat) else s.reg r) ∧
    RegisterFrame (.ldVxImem x) s t) ∧
  (∀ (x : Nibble) (s : State), 0xFFF < s.dataAddr + x.toNat → Faults (.ldVxImem x) s .memReadOutOfRange)

/-- The round trip (R112): a store that did not fault, then a load with the same `x`, `I` and bytes, whatever became
of the registers in between, restores `V[0]` to `V[x]`. -/
def Obligations.StoreThenLoadRestores : Prop :=
  ∀ (x : Nibble) (s t u : State), s.fault = none → exec (.ldImemVx x) s = .next t → t.fault = none →
    u.index = s.index → (∀ k, k ≤ x.toNat → u.byte (s.dataAddr + k) = t.byte (s.dataAddr + k)) →
    ∃ v, exec (.ldVxImem x) u = .next v ∧ v.fault = u.fault ∧ ∀ r : Nibble, r.toNat ≤ x.toNat → v.reg r = s.reg r

/-! ### Display -/

/-- `00E0` (R115). -/
def Obligations.ClearDarkensEveryCell : Prop :=
  Selects 0xF00F 0x0000 (fun w => .cls (fieldMid w)) ∧
  ∀ (ign : Byte) (s : State), ∃ t, exec (.cls ign) s = .next t ∧ (∀ px py, t.cell px py = false) ∧
    t.reg 0xF = s.reg 0xF ∧ DisplayFrame (.cls ign) s t

/-- `Dxyn` where `DRAW_EDGE` is `wrap` (R116): a cell a set sprite bit lands on is inverted, every other is kept, and
`VF` tells whether one of the inverted cells was lit. The fault is the same for either value of the parameter. -/
def Obligations.DrawTogglesSpriteCells : Prop :=
  Selects 0xF000 0xD000 (fun w => .drw (fieldX w) (fieldY w) (fieldN w)) ∧
  (∀ (x y n : Nibble) (s : State), s.params.drawEdge = .wrap → n.toNat = 0 ∨ s.dataAddr + n.toNat - 1 ≤ 0xFFF →
    ∃ t, exec (.drw x y n) s = .next t ∧
    (∀ px py, WrapHit s x y n px py → t.cell px py = !s.cell px py) ∧
    (∀ px py, ¬ WrapHit s x y n px py → t.cell px py = s.cell px py) ∧
    ((∃ px py, WrapHit s x y n px py ∧ s.cell px py = true) → t.reg 0xF = 1) ∧
    ((¬ ∃ px py, WrapHit s x y n px py ∧ s.cell px py = true) → t.reg 0xF = 0) ∧
    DisplayFrame (.drw x y n) s t) ∧
  (∀ (x y n : Nibble) (s : State), 0 < n.toNat → 0xFFF < s.dataAddr + n.toNat - 1 →
    Faults (.drw x y n) s .memReadOutOfRange)

/-- `Dxyn` where `DRAW_EDGE` is `clip` (R117): as under `wrap`, but a set bit beyond column 63 or row 31 is skipped; all
rows are still read, so the fault is the same. -/
def Obligations.ClipSkipsOffScreenPixels : Prop :=
  (∀ (x y n : Nibble) (s : State), s.params.drawEdge = .clip → n.toNat = 0 ∨ s.dataAddr + n.toNat - 1 ≤ 0xFFF →
    ∃ t, exec (.drw x y n) s = .next t ∧
    (∀ px py, ClipHit s x y n px py → t.cell px py = !s.cell px py) ∧
    (∀ px py, ¬ ClipHit s x y n px py → t.cell px py = s.cell px py) ∧
    ((∃ px py, ClipHit s x y n px py ∧ s.cell px py = true) → t.reg 0xF = 1) ∧
    ((¬ ∃ px py, ClipHit s x y n px py ∧ s.cell px py = true) → t.reg 0xF = 0) ∧
    DisplayFrame (.drw x y n) s t) ∧
  (∀ (x y n : Nibble) (s : State), s.params.drawEdge = .clip → 0 < n.toNat → 0xFFF < s.dataAddr + n.toNat - 1 →
    Faults (.drw x y n) s .memReadOutOfRange)

/-- Drawing the same sprite twice at the same place (R118), whatever the parameters, so under either edge policy. First,
of any sprite, origin and framebuffer: the framebuffer is as it was, and the second draw reports a collision exactly when
the first lit a dark cell (log entry 15, notes/assumptions/15.md, DEDUCED, says where R116's words differ). The place is
the same when the second draw finds the same origin: the first may have changed it only through `VF`. Then the document's
test: clear, draw an 8×1 sprite of set bits at `(0,0)`, draw again. -/
def Obligations.DrawTwiceRestores : Prop :=
  (∀ (x y n : Nibble) (s t : State), s.fault = none → exec (.drw x y n) s = .next t → t.fault = none →
    (t.reg x).toNat % 64 = (s.reg x).toNat % 64 → (t.reg y).toNat % 32 = (s.reg y).toNat % 32 →
    ∃ u, exec (.drw x y n) t = .next u ∧ VideoKept s u ∧
      ((∃ px py, s.cell px py = false ∧ t.cell px py = true) → u.reg 0xF = 1) ∧
      ((¬ ∃ px py, s.cell px py = false ∧ t.cell px py = true) → u.reg 0xF = 0)) ∧
  (∀ (ign : Byte) (x y : Nibble) (s : State), s.dataAddr ≤ 0xFFF → s.byte s.dataAddr = 0xFF → s.reg x = 0 →
    s.reg y = 0 → ∃ r t u, exec (.cls ign) s = .next r ∧ exec (.drw x y 1) r = .next t ∧
      exec (.drw x y 1) t = .next u ∧ (∀ px py, t.cell px py = true ↔ px.val < 8 ∧ py.val = 0) ∧ t.reg 0xF = 0 ∧
      (∀ px py, u.cell px py = false) ∧ u.reg 0xF = 1)

/-! ### Keypad, timers, no-op -/

/-- `Ex9E` and `ExA1` (R120, R121). -/
def Obligations.SkipOnKey : Prop :=
  Selects 0xF00F 0xE00E (fun w => .skp (fieldX w) (fieldY w)) ∧
  Selects 0xF00F 0xE001 (fun w => .sknp (fieldX w) (fieldY w)) ∧
  (∀ (x ign : Nibble) (s : State) (k : Fin 16), (s.reg x).toNat = k.val →
    (∃ t, exec (.skp x ign) s = .next t ∧ t.pc = (if s.keyDown k = true then s.pc + 2 + 2 else s.pc + 2) ∧
      JumpFrame (.skp x ign) s t) ∧
    (∃ t, exec (.sknp x ign) s = .next t ∧ t.pc = (if s.keyDown k = false then s.pc + 2 + 2 else s.pc + 2) ∧
      JumpFrame (.sknp x ign) s t)) ∧
  (∀ (x ign : Nibble) (s : State), 15 < (s.reg x).toNat →
    Faults (.skp x ign) s .keyIndexOutOfRange ∧ Faults (.sknp x ign) s .keyIndexOutOfRange)

/-- `Fx0A` (R122): with no key pressed `pc` ends where it started; otherwise the lowest pressed key's number. -/
def Obligations.KeyWait : Prop :=
  Selects 0xF0FF 0xF00A (fun w => .ldVxK (fieldX w)) ∧
  (∀ (x : Nibble) (s : State), (∀ k, s.keyDown k = false) →
    ∃ t, exec (.ldVxK x) s = .next t ∧ t.pc = s.pc ∧ JumpFrame (.ldVxK x) s t) ∧
  (∀ (x : Nibble) (s : State) (k : Fin 16), s.keyDown k = true → (∀ j, j < k → s.keyDown j = false) →
    ∃ t, exec (.ldVxK x) s = .next t ∧ (t.reg x).toNat = k.val ∧ RegsKeptBut x s t ∧ RegisterFrame (.ldVxK x) s t)

/-- `Fx07`, `Fx15`, `Fx18` (R123, R124, R125): the timer is read before this cycle's tick and set before it. -/
def Obligations.TimerAccess : Prop :=
  Selects 0xF0FF 0xF007 (fun w => .ldVxDt (fieldX w)) ∧ Selects 0xF0FF 0xF015 (fun w => .ldDtVx (fieldX w)) ∧
  Selects 0xF0FF 0xF018 (fun w => .ldStVx (fieldX w)) ∧
  ∀ (x : Nibble) (s : State),
    (∃ t, exec (.ldVxDt x) s = .next t ∧ t.reg x = s.dt ∧ RegsKeptBut x s t ∧ RegisterFrame (.ldVxDt x) s t) ∧
    (∃ t, exec (.ldDtVx x) s = .next t ∧ t.dt.toNat = (s.reg x).toNat - 1 ∧ t.st.toNat = s.st.toNat - 1 ∧
      Completed (.ldDtVx x) s t ∧ t.pc = s.pc + 2 ∧ RegsKept s t ∧ t.index = s.index ∧ StackKept s t ∧ MemKept s t ∧
      VideoKept s t ∧ t.rndDraws = s.rndDraws) ∧
    (∃ t, exec (.ldStVx x) s = .next t ∧ t.st.toNat = (s.reg x).toNat - 1 ∧ t.dt.toNat = s.dt.toNat - 1 ∧
      Completed (.ldStVx x) s t ∧ t.pc = s.pc + 2 ∧ RegsKept s t ∧ t.index = s.index ∧ StackKept s t ∧ MemKept s t ∧
      VideoKept s t ∧ t.rndDraws = s.rndDraws)

/-- `NOP` (R76, R102): `opcode`, `pc` and the timers move and nothing else, for each of the four kinds of no-op
word. -/
def Obligations.NopMovesOnlyTheCycle : Prop :=
  (∀ (ign : Byte) (sel : Nibble) (s : State), ∃ t, exec (.nopS4 ign sel) s = .next t ∧ RegsKept s t ∧
    RegisterFrame (.nopS4 ign sel) s t) ∧
  (∀ (x y sel : Nibble) (s : State), ∃ t, exec (.nopXys x y sel) s = .next t ∧ RegsKept s t ∧
    RegisterFrame (.nopXys x y sel) s t) ∧
  (∀ (x ign sel : Nibble) (s : State), ∃ t, exec (.nopXs4 x ign sel) s = .next t ∧ RegsKept s t ∧
    RegisterFrame (.nopXs4 x ign sel) s t) ∧
  (∀ (x : Nibble) (sel : Byte) (s : State), ∃ t, exec (.nopXs8 x sel) s = .next t ∧ RegsKept s t ∧
    RegisterFrame (.nopXs8 x sel) s t)

/-! ### Parameters -/

/-- The parameters of the machine (R6, R28): no move of the host and no cycle changes them; after the fetch, `GLYPH_ROM`
matters only to the operations that read memory, `Dxyn` and `Fx65`, and `DRAW_EDGE` only to `Dxyn` (R23, R117). That a
state carries them is the model's own (log entry 21, notes/assumptions/21.md, DESIGN CHOICE). -/
def Obligations.ParametersMatterOnlyWhereRead : Prop :=
  (∀ (m : Move) (s : State), (applyMove m s).params = s.params) ∧
  (∀ (i : Instr) (s t : State), exec i s = .next t →
    t.params = s.params ∧
    (i.op ∉ [Op.drw, .ldVxImem] → ∀ p, exec i { s with params := p } = .next { t with params := p }) ∧
    (i.op ≠ .drw → ∀ e, exec i { s with params := { s.params with drawEdge := e } } =
      .next { t with params := { t.params with drawEdge := e } }))
end

