-- ==== Sys2Proof/Laws/State.lean ====
section
/-!
SUPPORT. One lemma per field per update of the Machine State, true by `rfl`, so that no proof unfolds an update.
-/

namespace Sys2Proof.Machine

/-! ### setReg -/

@[simp] theorem State.setReg_mem (s : State) (x : Nibble) (v : Byte) : (s.setReg x v).mem = s.mem := rfl
@[simp] theorem State.setReg_index (s : State) (x : Nibble) (v : Byte) : (s.setReg x v).index = s.index := rfl
@[simp] theorem State.setReg_pc (s : State) (x : Nibble) (v : Byte) : (s.setReg x v).pc = s.pc := rfl
@[simp] theorem State.setReg_stack (s : State) (x : Nibble) (v : Byte) : (s.setReg x v).stack = s.stack := rfl
@[simp] theorem State.setReg_sp (s : State) (x : Nibble) (v : Byte) : (s.setReg x v).sp = s.sp := rfl
@[simp] theorem State.setReg_dt (s : State) (x : Nibble) (v : Byte) : (s.setReg x v).dt = s.dt := rfl
@[simp] theorem State.setReg_st (s : State) (x : Nibble) (v : Byte) : (s.setReg x v).st = s.st := rfl
@[simp] theorem State.setReg_video (s : State) (x : Nibble) (v : Byte) : (s.setReg x v).video = s.video := rfl
@[simp] theorem State.setReg_keypad (s : State) (x : Nibble) (v : Byte) : (s.setReg x v).keypad = s.keypad := rfl
@[simp] theorem State.setReg_opcode (s : State) (x : Nibble) (v : Byte) : (s.setReg x v).opcode = s.opcode := rfl
@[simp] theorem State.setReg_fault (s : State) (x : Nibble) (v : Byte) : (s.setReg x v).fault = s.fault := rfl
@[simp] theorem State.setReg_params (s : State) (x : Nibble) (v : Byte) : (s.setReg x v).params = s.params := rfl
@[simp] theorem State.setReg_rndDraws (s : State) (x : Nibble) (v : Byte) : (s.setReg x v).rndDraws = s.rndDraws := rfl
@[simp] theorem State.setReg_keyInput (s : State) (x : Nibble) (v : Byte) : (s.setReg x v).keyInput = s.keyInput := rfl
@[simp] theorem State.setReg_byte (s : State) (x : Nibble) (v : Byte) (a : Nat) : (s.setReg x v).byte a = s.byte a := rfl
@[simp] theorem State.setReg_bytes (s : State) (x : Nibble) (v : Byte) (a n : Nat) : (s.setReg x v).bytes a n = s.bytes a n := rfl
@[simp] theorem State.setReg_cell (s : State) (x : Nibble) (v : Byte) (px : Fin 64) (py : Fin 32) : (s.setReg x v).cell px py = s.cell px py := rfl
@[simp] theorem State.setReg_keyDown (s : State) (x : Nibble) (v : Byte) (key : Fin 16) : (s.setReg x v).keyDown key = s.keyDown key := rfl

/-! ### setRegsFrom0 -/

@[simp] theorem State.setRegsFrom0_mem (s : State) (bytes : List Byte) : (s.setRegsFrom0 bytes).mem = s.mem := rfl
@[simp] theorem State.setRegsFrom0_index (s : State) (bytes : List Byte) : (s.setRegsFrom0 bytes).index = s.index := rfl
@[simp] theorem State.setRegsFrom0_pc (s : State) (bytes : List Byte) : (s.setRegsFrom0 bytes).pc = s.pc := rfl
@[simp] theorem State.setRegsFrom0_stack (s : State) (bytes : List Byte) : (s.setRegsFrom0 bytes).stack = s.stack := rfl
@[simp] theorem State.setRegsFrom0_sp (s : State) (bytes : List Byte) : (s.setRegsFrom0 bytes).sp = s.sp := rfl
@[simp] theorem State.setRegsFrom0_dt (s : State) (bytes : List Byte) : (s.setRegsFrom0 bytes).dt = s.dt := rfl
@[simp] theorem State.setRegsFrom0_st (s : State) (bytes : List Byte) : (s.setRegsFrom0 bytes).st = s.st := rfl
@[simp] theorem State.setRegsFrom0_video (s : State) (bytes : List Byte) : (s.setRegsFrom0 bytes).video = s.video := rfl
@[simp] theorem State.setRegsFrom0_keypad (s : State) (bytes : List Byte) : (s.setRegsFrom0 bytes).keypad = s.keypad := rfl
@[simp] theorem State.setRegsFrom0_opcode (s : State) (bytes : List Byte) : (s.setRegsFrom0 bytes).opcode = s.opcode := rfl
@[simp] theorem State.setRegsFrom0_fault (s : State) (bytes : List Byte) : (s.setRegsFrom0 bytes).fault = s.fault := rfl
@[simp] theorem State.setRegsFrom0_params (s : State) (bytes : List Byte) : (s.setRegsFrom0 bytes).params = s.params := rfl
@[simp] theorem State.setRegsFrom0_rndDraws (s : State) (bytes : List Byte) : (s.setRegsFrom0 bytes).rndDraws = s.rndDraws := rfl
@[simp] theorem State.setRegsFrom0_keyInput (s : State) (bytes : List Byte) : (s.setRegsFrom0 bytes).keyInput = s.keyInput := rfl
@[simp] theorem State.setRegsFrom0_byte (s : State) (bytes : List Byte) (a : Nat) : (s.setRegsFrom0 bytes).byte a = s.byte a := rfl
@[simp] theorem State.setRegsFrom0_bytes (s : State) (bytes : List Byte) (a n : Nat) : (s.setRegsFrom0 bytes).bytes a n = s.bytes a n := rfl
@[simp] theorem State.setRegsFrom0_cell (s : State) (bytes : List Byte) (px : Fin 64) (py : Fin 32) : (s.setRegsFrom0 bytes).cell px py = s.cell px py := rfl
@[simp] theorem State.setRegsFrom0_keyDown (s : State) (bytes : List Byte) (key : Fin 16) : (s.setRegsFrom0 bytes).keyDown key = s.keyDown key := rfl

/-! ### setIndex -/

@[simp] theorem State.setIndex_mem (s : State) (v : Word) : (s.setIndex v).mem = s.mem := rfl
@[simp] theorem State.setIndex_regs (s : State) (v : Word) : (s.setIndex v).regs = s.regs := rfl
@[simp] theorem State.setIndex_index (s : State) (v : Word) : (s.setIndex v).index = v := rfl
@[simp] theorem State.setIndex_pc (s : State) (v : Word) : (s.setIndex v).pc = s.pc := rfl
@[simp] theorem State.setIndex_stack (s : State) (v : Word) : (s.setIndex v).stack = s.stack := rfl
@[simp] theorem State.setIndex_sp (s : State) (v : Word) : (s.setIndex v).sp = s.sp := rfl
@[simp] theorem State.setIndex_dt (s : State) (v : Word) : (s.setIndex v).dt = s.dt := rfl
@[simp] theorem State.setIndex_st (s : State) (v : Word) : (s.setIndex v).st = s.st := rfl
@[simp] theorem State.setIndex_video (s : State) (v : Word) : (s.setIndex v).video = s.video := rfl
@[simp] theorem State.setIndex_keypad (s : State) (v : Word) : (s.setIndex v).keypad = s.keypad := rfl
@[simp] theorem State.setIndex_opcode (s : State) (v : Word) : (s.setIndex v).opcode = s.opcode := rfl
@[simp] theorem State.setIndex_fault (s : State) (v : Word) : (s.setIndex v).fault = s.fault := rfl
@[simp] theorem State.setIndex_params (s : State) (v : Word) : (s.setIndex v).params = s.params := rfl
@[simp] theorem State.setIndex_rndDraws (s : State) (v : Word) : (s.setIndex v).rndDraws = s.rndDraws := rfl
@[simp] theorem State.setIndex_keyInput (s : State) (v : Word) : (s.setIndex v).keyInput = s.keyInput := rfl
@[simp] theorem State.setIndex_byte (s : State) (v : Word) (a : Nat) : (s.setIndex v).byte a = s.byte a := rfl
@[simp] theorem State.setIndex_bytes (s : State) (v : Word) (a n : Nat) : (s.setIndex v).bytes a n = s.bytes a n := rfl
@[simp] theorem State.setIndex_reg (s : State) (v : Word) (r : Nibble) : (s.setIndex v).reg r = s.reg r := rfl
@[simp] theorem State.setIndex_cell (s : State) (v : Word) (px : Fin 64) (py : Fin 32) : (s.setIndex v).cell px py = s.cell px py := rfl
@[simp] theorem State.setIndex_keyDown (s : State) (v : Word) (key : Fin 16) : (s.setIndex v).keyDown key = s.keyDown key := rfl

/-! ### setPc -/

@[simp] theorem State.setPc_mem (s : State) (v : Word) : (s.setPc v).mem = s.mem := rfl
@[simp] theorem State.setPc_regs (s : State) (v : Word) : (s.setPc v).regs = s.regs := rfl
@[simp] theorem State.setPc_index (s : State) (v : Word) : (s.setPc v).index = s.index := rfl
@[simp] theorem State.setPc_pc (s : State) (v : Word) : (s.setPc v).pc = v := rfl
@[simp] theorem State.setPc_stack (s : State) (v : Word) : (s.setPc v).stack = s.stack := rfl
@[simp] theorem State.setPc_sp (s : State) (v : Word) : (s.setPc v).sp = s.sp := rfl
@[simp] theorem State.setPc_dt (s : State) (v : Word) : (s.setPc v).dt = s.dt := rfl
@[simp] theorem State.setPc_st (s : State) (v : Word) : (s.setPc v).st = s.st := rfl
@[simp] theorem State.setPc_video (s : State) (v : Word) : (s.setPc v).video = s.video := rfl
@[simp] theorem State.setPc_keypad (s : State) (v : Word) : (s.setPc v).keypad = s.keypad := rfl
@[simp] theorem State.setPc_opcode (s : State) (v : Word) : (s.setPc v).opcode = s.opcode := rfl
@[simp] theorem State.setPc_fault (s : State) (v : Word) : (s.setPc v).fault = s.fault := rfl
@[simp] theorem State.setPc_params (s : State) (v : Word) : (s.setPc v).params = s.params := rfl
@[simp] theorem State.setPc_rndDraws (s : State) (v : Word) : (s.setPc v).rndDraws = s.rndDraws := rfl
@[simp] theorem State.setPc_keyInput (s : State) (v : Word) : (s.setPc v).keyInput = s.keyInput := rfl
@[simp] theorem State.setPc_byte (s : State) (v : Word) (a : Nat) : (s.setPc v).byte a = s.byte a := rfl
@[simp] theorem State.setPc_bytes (s : State) (v : Word) (a n : Nat) : (s.setPc v).bytes a n = s.bytes a n := rfl
@[simp] theorem State.setPc_reg (s : State) (v : Word) (r : Nibble) : (s.setPc v).reg r = s.reg r := rfl
@[simp] theorem State.setPc_cell (s : State) (v : Word) (px : Fin 64) (py : Fin 32) : (s.setPc v).cell px py = s.cell px py := rfl
@[simp] theorem State.setPc_keyDown (s : State) (v : Word) (key : Fin 16) : (s.setPc v).keyDown key = s.keyDown key := rfl

/-! ### setDt -/

@[simp] theorem State.setDt_mem (s : State) (v : Byte) : (s.setDt v).mem = s.mem := rfl
@[simp] theorem State.setDt_regs (s : State) (v : Byte) : (s.setDt v).regs = s.regs := rfl
@[simp] theorem State.setDt_index (s : State) (v : Byte) : (s.setDt v).index = s.index := rfl
@[simp] theorem State.setDt_pc (s : State) (v : Byte) : (s.setDt v).pc = s.pc := rfl
@[simp] theorem State.setDt_stack (s : State) (v : Byte) : (s.setDt v).stack = s.stack := rfl
@[simp] theorem State.setDt_sp (s : State) (v : Byte) : (s.setDt v).sp = s.sp := rfl
@[simp] theorem State.setDt_dt (s : State) (v : Byte) : (s.setDt v).dt = v := rfl
@[simp] theorem State.setDt_st (s : State) (v : Byte) : (s.setDt v).st = s.st := rfl
@[simp] theorem State.setDt_video (s : State) (v : Byte) : (s.setDt v).video = s.video := rfl
@[simp] theorem State.setDt_keypad (s : State) (v : Byte) : (s.setDt v).keypad = s.keypad := rfl
@[simp] theorem State.setDt_opcode (s : State) (v : Byte) : (s.setDt v).opcode = s.opcode := rfl
@[simp] theorem State.setDt_fault (s : State) (v : Byte) : (s.setDt v).fault = s.fault := rfl
@[simp] theorem State.setDt_params (s : State) (v : Byte) : (s.setDt v).params = s.params := rfl
@[simp] theorem State.setDt_rndDraws (s : State) (v : Byte) : (s.setDt v).rndDraws = s.rndDraws := rfl
@[simp] theorem State.setDt_keyInput (s : State) (v : Byte) : (s.setDt v).keyInput = s.keyInput := rfl
@[simp] theorem State.setDt_byte (s : State) (v : Byte) (a : Nat) : (s.setDt v).byte a = s.byte a := rfl
@[simp] theorem State.setDt_bytes (s : State) (v : Byte) (a n : Nat) : (s.setDt v).bytes a n = s.bytes a n := rfl
@[simp] theorem State.setDt_reg (s : State) (v : Byte) (r : Nibble) : (s.setDt v).reg r = s.reg r := rfl
@[simp] theorem State.setDt_cell (s : State) (v : Byte) (px : Fin 64) (py : Fin 32) : (s.setDt v).cell px py = s.cell px py := rfl
@[simp] theorem State.setDt_keyDown (s : State) (v : Byte) (key : Fin 16) : (s.setDt v).keyDown key = s.keyDown key := rfl

/-! ### setSt -/

@[simp] theorem State.setSt_mem (s : State) (v : Byte) : (s.setSt v).mem = s.mem := rfl
@[simp] theorem State.setSt_regs (s : State) (v : Byte) : (s.setSt v).regs = s.regs := rfl
@[simp] theorem State.setSt_index (s : State) (v : Byte) : (s.setSt v).index = s.index := rfl
@[simp] theorem State.setSt_pc (s : State) (v : Byte) : (s.setSt v).pc = s.pc := rfl
@[simp] theorem State.setSt_stack (s : State) (v : Byte) : (s.setSt v).stack = s.stack := rfl
@[simp] theorem State.setSt_sp (s : State) (v : Byte) : (s.setSt v).sp = s.sp := rfl
@[simp] theorem State.setSt_dt (s : State) (v : Byte) : (s.setSt v).dt = s.dt := rfl
@[simp] theorem State.setSt_st (s : State) (v : Byte) : (s.setSt v).st = v := rfl
@[simp] theorem State.setSt_video (s : State) (v : Byte) : (s.setSt v).video = s.video := rfl
@[simp] theorem State.setSt_keypad (s : State) (v : Byte) : (s.setSt v).keypad = s.keypad := rfl
@[simp] theorem State.setSt_opcode (s : State) (v : Byte) : (s.setSt v).opcode = s.opcode := rfl
@[simp] theorem State.setSt_fault (s : State) (v : Byte) : (s.setSt v).fault = s.fault := rfl
@[simp] theorem State.setSt_params (s : State) (v : Byte) : (s.setSt v).params = s.params := rfl
@[simp] theorem State.setSt_rndDraws (s : State) (v : Byte) : (s.setSt v).rndDraws = s.rndDraws := rfl
@[simp] theorem State.setSt_keyInput (s : State) (v : Byte) : (s.setSt v).keyInput = s.keyInput := rfl
@[simp] theorem State.setSt_byte (s : State) (v : Byte) (a : Nat) : (s.setSt v).byte a = s.byte a := rfl
@[simp] theorem State.setSt_bytes (s : State) (v : Byte) (a n : Nat) : (s.setSt v).bytes a n = s.bytes a n := rfl
@[simp] theorem State.setSt_reg (s : State) (v : Byte) (r : Nibble) : (s.setSt v).reg r = s.reg r := rfl
@[simp] theorem State.setSt_cell (s : State) (v : Byte) (px : Fin 64) (py : Fin 32) : (s.setSt v).cell px py = s.cell px py := rfl
@[simp] theorem State.setSt_keyDown (s : State) (v : Byte) (key : Fin 16) : (s.setSt v).keyDown key = s.keyDown key := rfl

/-! ### setVideo -/

@[simp] theorem State.setVideo_mem (s : State) (v : Video) : (s.setVideo v).mem = s.mem := rfl
@[simp] theorem State.setVideo_regs (s : State) (v : Video) : (s.setVideo v).regs = s.regs := rfl
@[simp] theorem State.setVideo_index (s : State) (v : Video) : (s.setVideo v).index = s.index := rfl
@[simp] theorem State.setVideo_pc (s : State) (v : Video) : (s.setVideo v).pc = s.pc := rfl
@[simp] theorem State.setVideo_stack (s : State) (v : Video) : (s.setVideo v).stack = s.stack := rfl
@[simp] theorem State.setVideo_sp (s : State) (v : Video) : (s.setVideo v).sp = s.sp := rfl
@[simp] theorem State.setVideo_dt (s : State) (v : Video) : (s.setVideo v).dt = s.dt := rfl
@[simp] theorem State.setVideo_st (s : State) (v : Video) : (s.setVideo v).st = s.st := rfl
@[simp] theorem State.setVideo_video (s : State) (v : Video) : (s.setVideo v).video = v := rfl
@[simp] theorem State.setVideo_keypad (s : State) (v : Video) : (s.setVideo v).keypad = s.keypad := rfl
@[simp] theorem State.setVideo_opcode (s : State) (v : Video) : (s.setVideo v).opcode = s.opcode := rfl
@[simp] theorem State.setVideo_fault (s : State) (v : Video) : (s.setVideo v).fault = s.fault := rfl
@[simp] theorem State.setVideo_params (s : State) (v : Video) : (s.setVideo v).params = s.params := rfl
@[simp] theorem State.setVideo_rndDraws (s : State) (v : Video) : (s.setVideo v).rndDraws = s.rndDraws := rfl
@[simp] theorem State.setVideo_keyInput (s : State) (v : Video) : (s.setVideo v).keyInput = s.keyInput := rfl
@[simp] theorem State.setVideo_byte (s : State) (v : Video) (a : Nat) : (s.setVideo v).byte a = s.byte a := rfl
@[simp] theorem State.setVideo_bytes (s : State) (v : Video) (a n : Nat) : (s.setVideo v).bytes a n = s.bytes a n := rfl
@[simp] theorem State.setVideo_reg (s : State) (v : Video) (r : Nibble) : (s.setVideo v).reg r = s.reg r := rfl
@[simp] theorem State.setVideo_keyDown (s : State) (v : Video) (key : Fin 16) : (s.setVideo v).keyDown key = s.keyDown key := rfl

/-! ### setKeypad -/

@[simp] theorem State.setKeypad_mem (s : State) (k : BitVec 16) : (s.setKeypad k).mem = s.mem := rfl
@[simp] theorem State.setKeypad_regs (s : State) (k : BitVec 16) : (s.setKeypad k).regs = s.regs := rfl
@[simp] theorem State.setKeypad_index (s : State) (k : BitVec 16) : (s.setKeypad k).index = s.index := rfl
@[simp] theorem State.setKeypad_pc (s : State) (k : BitVec 16) : (s.setKeypad k).pc = s.pc := rfl
@[simp] theorem State.setKeypad_stack (s : State) (k : BitVec 16) : (s.setKeypad k).stack = s.stack := rfl
@[simp] theorem State.setKeypad_sp (s : State) (k : BitVec 16) : (s.setKeypad k).sp = s.sp := rfl
@[simp] theorem State.setKeypad_dt (s : State) (k : BitVec 16) : (s.setKeypad k).dt = s.dt := rfl
@[simp] theorem State.setKeypad_st (s : State) (k : BitVec 16) : (s.setKeypad k).st = s.st := rfl
@[simp] theorem State.setKeypad_video (s : State) (k : BitVec 16) : (s.setKeypad k).video = s.video := rfl
@[simp] theorem State.setKeypad_keypad (s : State) (k : BitVec 16) : (s.setKeypad k).keypad = k := rfl
@[simp] theorem State.setKeypad_opcode (s : State) (k : BitVec 16) : (s.setKeypad k).opcode = s.opcode := rfl
@[simp] theorem State.setKeypad_fault (s : State) (k : BitVec 16) : (s.setKeypad k).fault = s.fault := rfl
@[simp] theorem State.setKeypad_params (s : State) (k : BitVec 16) : (s.setKeypad k).params = s.params := rfl
@[simp] theorem State.setKeypad_rndDraws (s : State) (k : BitVec 16) : (s.setKeypad k).rndDraws = s.rndDraws := rfl
@[simp] theorem State.setKeypad_keyInput (s : State) (k : BitVec 16) : (s.setKeypad k).keyInput = s.keyInput := rfl
@[simp] theorem State.setKeypad_byte (s : State) (k : BitVec 16) (a : Nat) : (s.setKeypad k).byte a = s.byte a := rfl
@[simp] theorem State.setKeypad_bytes (s : State) (k : BitVec 16) (a n : Nat) : (s.setKeypad k).bytes a n = s.bytes a n := rfl
@[simp] theorem State.setKeypad_reg (s : State) (k : BitVec 16) (r : Nibble) : (s.setKeypad k).reg r = s.reg r := rfl
@[simp] theorem State.setKeypad_cell (s : State) (k : BitVec 16) (px : Fin 64) (py : Fin 32) : (s.setKeypad k).cell px py = s.cell px py := rfl

/-! ### countDraw -/

@[simp] theorem State.countDraw_mem (s : State) : (s.countDraw).mem = s.mem := rfl
@[simp] theorem State.countDraw_regs (s : State) : (s.countDraw).regs = s.regs := rfl
@[simp] theorem State.countDraw_index (s : State) : (s.countDraw).index = s.index := rfl
@[simp] theorem State.countDraw_pc (s : State) : (s.countDraw).pc = s.pc := rfl
@[simp] theorem State.countDraw_stack (s : State) : (s.countDraw).stack = s.stack := rfl
@[simp] theorem State.countDraw_sp (s : State) : (s.countDraw).sp = s.sp := rfl
@[simp] theorem State.countDraw_dt (s : State) : (s.countDraw).dt = s.dt := rfl
@[simp] theorem State.countDraw_st (s : State) : (s.countDraw).st = s.st := rfl
@[simp] theorem State.countDraw_video (s : State) : (s.countDraw).video = s.video := rfl
@[simp] theorem State.countDraw_keypad (s : State) : (s.countDraw).keypad = s.keypad := rfl
@[simp] theorem State.countDraw_opcode (s : State) : (s.countDraw).opcode = s.opcode := rfl
@[simp] theorem State.countDraw_fault (s : State) : (s.countDraw).fault = s.fault := rfl
@[simp] theorem State.countDraw_params (s : State) : (s.countDraw).params = s.params := rfl
@[simp] theorem State.countDraw_rndDraws (s : State) : (s.countDraw).rndDraws = s.rndDraws + 1 := rfl
@[simp] theorem State.countDraw_keyInput (s : State) : (s.countDraw).keyInput = s.keyInput := rfl
@[simp] theorem State.countDraw_byte (s : State) (a : Nat) : (s.countDraw).byte a = s.byte a := rfl
@[simp] theorem State.countDraw_bytes (s : State) (a n : Nat) : (s.countDraw).bytes a n = s.bytes a n := rfl
@[simp] theorem State.countDraw_reg (s : State) (r : Nibble) : (s.countDraw).reg r = s.reg r := rfl
@[simp] theorem State.countDraw_cell (s : State) (px : Fin 64) (py : Fin 32) : (s.countDraw).cell px py = s.cell px py := rfl
@[simp] theorem State.countDraw_keyDown (s : State) (key : Fin 16) : (s.countDraw).keyDown key = s.keyDown key := rfl

/-! ### latchAndAdvance -/

@[simp] theorem State.latchAndAdvance_mem (s : State) (w : Word) : (s.latchAndAdvance w).mem = s.mem := rfl
@[simp] theorem State.latchAndAdvance_regs (s : State) (w : Word) : (s.latchAndAdvance w).regs = s.regs := rfl
@[simp] theorem State.latchAndAdvance_index (s : State) (w : Word) : (s.latchAndAdvance w).index = s.index := rfl
@[simp] theorem State.latchAndAdvance_pc (s : State) (w : Word) : (s.latchAndAdvance w).pc = s.pc + 2 := rfl
@[simp] theorem State.latchAndAdvance_stack (s : State) (w : Word) : (s.latchAndAdvance w).stack = s.stack := rfl
@[simp] theorem State.latchAndAdvance_sp (s : State) (w : Word) : (s.latchAndAdvance w).sp = s.sp := rfl
@[simp] theorem State.latchAndAdvance_dt (s : State) (w : Word) : (s.latchAndAdvance w).dt = s.dt := rfl
@[simp] theorem State.latchAndAdvance_st (s : State) (w : Word) : (s.latchAndAdvance w).st = s.st := rfl
@[simp] theorem State.latchAndAdvance_video (s : State) (w : Word) : (s.latchAndAdvance w).video = s.video := rfl
@[simp] theorem State.latchAndAdvance_keypad (s : State) (w : Word) : (s.latchAndAdvance w).keypad = s.keypad := rfl
@[simp] theorem State.latchAndAdvance_opcode (s : State) (w : Word) : (s.latchAndAdvance w).opcode = w := rfl
@[simp] theorem State.latchAndAdvance_fault (s : State) (w : Word) : (s.latchAndAdvance w).fault = s.fault := rfl
@[simp] theorem State.latchAndAdvance_params (s : State) (w : Word) : (s.latchAndAdvance w).params = s.params := rfl
@[simp] theorem State.latchAndAdvance_rndDraws (s : State) (w : Word) : (s.latchAndAdvance w).rndDraws = s.rndDraws := rfl
@[simp] theorem State.latchAndAdvance_keyInput (s : State) (w : Word) : (s.latchAndAdvance w).keyInput = s.keyInput := rfl
@[simp] theorem State.latchAndAdvance_byte (s : State) (w : Word) (a : Nat) : (s.latchAndAdvance w).byte a = s.byte a := rfl
@[simp] theorem State.latchAndAdvance_bytes (s : State) (w : Word) (a n : Nat) : (s.latchAndAdvance w).bytes a n = s.bytes a n := rfl
@[simp] theorem State.latchAndAdvance_reg (s : State) (w : Word) (r : Nibble) : (s.latchAndAdvance w).reg r = s.reg r := rfl
@[simp] theorem State.latchAndAdvance_cell (s : State) (w : Word) (px : Fin 64) (py : Fin 32) : (s.latchAndAdvance w).cell px py = s.cell px py := rfl
@[simp] theorem State.latchAndAdvance_keyDown (s : State) (w : Word) (key : Fin 16) : (s.latchAndAdvance w).keyDown key = s.keyDown key := rfl

/-! ### tickTimers -/

@[simp] theorem State.tickTimers_mem (s : State) : (s.tickTimers).mem = s.mem := rfl
@[simp] theorem State.tickTimers_regs (s : State) : (s.tickTimers).regs = s.regs := rfl
@[simp] theorem State.tickTimers_index (s : State) : (s.tickTimers).index = s.index := rfl
@[simp] theorem State.tickTimers_pc (s : State) : (s.tickTimers).pc = s.pc := rfl
@[simp] theorem State.tickTimers_stack (s : State) : (s.tickTimers).stack = s.stack := rfl
@[simp] theorem State.tickTimers_sp (s : State) : (s.tickTimers).sp = s.sp := rfl
@[simp] theorem State.tickTimers_dt (s : State) : (s.tickTimers).dt = tick s.dt := rfl
@[simp] theorem State.tickTimers_st (s : State) : (s.tickTimers).st = tick s.st := rfl
@[simp] theorem State.tickTimers_video (s : State) : (s.tickTimers).video = s.video := rfl
@[simp] theorem State.tickTimers_keypad (s : State) : (s.tickTimers).keypad = s.keypad := rfl
@[simp] theorem State.tickTimers_opcode (s : State) : (s.tickTimers).opcode = s.opcode := rfl
@[simp] theorem State.tickTimers_fault (s : State) : (s.tickTimers).fault = s.fault := rfl
@[simp] theorem State.tickTimers_params (s : State) : (s.tickTimers).params = s.params := rfl
@[simp] theorem State.tickTimers_rndDraws (s : State) : (s.tickTimers).rndDraws = s.rndDraws := rfl
@[simp] theorem State.tickTimers_keyInput (s : State) : (s.tickTimers).keyInput = s.keyInput := rfl
@[simp] theorem State.tickTimers_byte (s : State) (a : Nat) : (s.tickTimers).byte a = s.byte a := rfl
@[simp] theorem State.tickTimers_bytes (s : State) (a n : Nat) : (s.tickTimers).bytes a n = s.bytes a n := rfl
@[simp] theorem State.tickTimers_reg (s : State) (r : Nibble) : (s.tickTimers).reg r = s.reg r := rfl
@[simp] theorem State.tickTimers_cell (s : State) (px : Fin 64) (py : Fin 32) : (s.tickTimers).cell px py = s.cell px py := rfl
@[simp] theorem State.tickTimers_keyDown (s : State) (key : Fin 16) : (s.tickTimers).keyDown key = s.keyDown key := rfl

/-! ### raise -/

@[simp] theorem State.raise_mem (s : State) (code : Fault) (w : Option Word) : (s.raise code w).mem = s.mem := rfl
@[simp] theorem State.raise_regs (s : State) (code : Fault) (w : Option Word) : (s.raise code w).regs = s.regs := rfl
@[simp] theorem State.raise_index (s : State) (code : Fault) (w : Option Word) : (s.raise code w).index = s.index := rfl
@[simp] theorem State.raise_pc (s : State) (code : Fault) (w : Option Word) : (s.raise code w).pc = s.pc := rfl
@[simp] theorem State.raise_stack (s : State) (code : Fault) (w : Option Word) : (s.raise code w).stack = s.stack := rfl
@[simp] theorem State.raise_sp (s : State) (code : Fault) (w : Option Word) : (s.raise code w).sp = s.sp := rfl
@[simp] theorem State.raise_dt (s : State) (code : Fault) (w : Option Word) : (s.raise code w).dt = s.dt := rfl
@[simp] theorem State.raise_st (s : State) (code : Fault) (w : Option Word) : (s.raise code w).st = s.st := rfl
@[simp] theorem State.raise_video (s : State) (code : Fault) (w : Option Word) : (s.raise code w).video = s.video := rfl
@[simp] theorem State.raise_keypad (s : State) (code : Fault) (w : Option Word) : (s.raise code w).keypad = s.keypad := rfl
@[simp] theorem State.raise_opcode (s : State) (code : Fault) (w : Option Word) : (s.raise code w).opcode = s.opcode := rfl
@[simp] theorem State.raise_fault (s : State) (code : Fault) (w : Option Word) : (s.raise code w).fault = some (FaultRecord.mk code s.pc w) := rfl
@[simp] theorem State.raise_params (s : State) (code : Fault) (w : Option Word) : (s.raise code w).params = s.params := rfl
@[simp] theorem State.raise_rndDraws (s : State) (code : Fault) (w : Option Word) : (s.raise code w).rndDraws = s.rndDraws := rfl
@[simp] theorem State.raise_keyInput (s : State) (code : Fault) (w : Option Word) : (s.raise code w).keyInput = s.keyInput := rfl
@[simp] theorem State.raise_byte (s : State) (code : Fault) (w : Option Word) (a : Nat) : (s.raise code w).byte a = s.byte a := rfl
@[simp] theorem State.raise_bytes (s : State) (code : Fault) (w : Option Word) (a n : Nat) : (s.raise code w).bytes a n = s.bytes a n := rfl
@[simp] theorem State.raise_reg (s : State) (code : Fault) (w : Option Word) (r : Nibble) : (s.raise code w).reg r = s.reg r := rfl
@[simp] theorem State.raise_cell (s : State) (code : Fault) (w : Option Word) (px : Fin 64) (py : Fin 32) : (s.raise code w).cell px py = s.cell px py := rfl
@[simp] theorem State.raise_keyDown (s : State) (code : Fault) (w : Option Word) (key : Fin 16) : (s.raise code w).keyDown key = s.keyDown key := rfl

/-! ### Reads after writes -/

@[simp] theorem State.setVideo_cell (s : State) (v : Video) (px : Fin 64) (py : Fin 32) :
    (s.setVideo v).cell px py = v.cell px py := rfl

@[simp] theorem State.setKeypad_keyDown (s : State) (k : BitVec 16) (key : Fin 16) :
    (s.setKeypad k).keyDown key = k.getLsbD key.val := rfl

/-- A register reads as last written; the others keep their values. -/
@[simp] theorem State.setReg_reg (s : State) (x r : Nibble) (v : Byte) :
    (s.setReg x v).reg r = if r = x then v else s.reg r := by
  simp only [State.reg, State.setReg, Vector.getElem_set, BitVec.toNat_inj, eq_comm]

/-- `setRegsFrom0` writes the registers below the length of the list and no other. -/
@[simp] theorem State.setRegsFrom0_reg (s : State) (bytes : List Byte) (r : Nibble) :
    (s.setRegsFrom0 bytes).reg r = bytes.getD r.toNat (s.reg r) := by
  simp [State.reg, State.setRegsFrom0]

/-! ### takeKeys: only the two keypad fields move -/

@[simp] theorem State.takeKeys_mem (s : State) : s.takeKeys.mem = s.mem := by
  unfold State.takeKeys; split <;> rfl
@[simp] theorem State.takeKeys_regs (s : State) : s.takeKeys.regs = s.regs := by
  unfold State.takeKeys; split <;> rfl
@[simp] theorem State.takeKeys_index (s : State) : s.takeKeys.index = s.index := by
  unfold State.takeKeys; split <;> rfl
@[simp] theorem State.takeKeys_pc (s : State) : s.takeKeys.pc = s.pc := by
  unfold State.takeKeys; split <;> rfl
@[simp] theorem State.takeKeys_stack (s : State) : s.takeKeys.stack = s.stack := by
  unfold State.takeKeys; split <;> rfl
@[simp] theorem State.takeKeys_sp (s : State) : s.takeKeys.sp = s.sp := by
  unfold State.takeKeys; split <;> rfl
@[simp] theorem State.takeKeys_dt (s : State) : s.takeKeys.dt = s.dt := by
  unfold State.takeKeys; split <;> rfl
@[simp] theorem State.takeKeys_st (s : State) : s.takeKeys.st = s.st := by
  unfold State.takeKeys; split <;> rfl
@[simp] theorem State.takeKeys_video (s : State) : s.takeKeys.video = s.video := by
  unfold State.takeKeys; split <;> rfl
@[simp] theorem State.takeKeys_opcode (s : State) : s.takeKeys.opcode = s.opcode := by
  unfold State.takeKeys; split <;> rfl
@[simp] theorem State.takeKeys_fault (s : State) : s.takeKeys.fault = s.fault := by
  unfold State.takeKeys; split <;> rfl
@[simp] theorem State.takeKeys_params (s : State) : s.takeKeys.params = s.params := by
  unfold State.takeKeys; split <;> rfl
@[simp] theorem State.takeKeys_rndDraws (s : State) : s.takeKeys.rndDraws = s.rndDraws := by
  unfold State.takeKeys; split <;> rfl
@[simp] theorem State.takeKeys_byte (s : State) (a : Nat) : s.takeKeys.byte a = s.byte a := by
  unfold State.takeKeys; split <;> rfl
@[simp] theorem State.takeKeys_bytes (s : State) (a n : Nat) : s.takeKeys.bytes a n = s.bytes a n := by
  unfold State.takeKeys; split <;> rfl

/-- With no write to come the host does nothing. -/
theorem State.takeKeys_nil (s : State) (h : s.keyInput = []) : s.takeKeys = s := by
  unfold State.takeKeys; rw [h]

/-- The next write to come is the one made. -/
theorem State.takeKeys_cons (s : State) (k : BitVec 16) (rest : List (BitVec 16)) (h : s.keyInput = k :: rest) :
    s.takeKeys = { s with keypad := k, keyInput := rest } := by
  unfold State.takeKeys; rw [h]

end Sys2Proof.Machine
end

