-- ==== Sys2Proof/Laws/Memory.lean ====
section
/-!
SUPPORT. Memory: a byte reads as last written, a write leaves every other byte alone, and every memory operation keeps
the canonical form (spec/20_memory.md rules R33, R34, R37).
-/

namespace Sys2Proof.Machine

@[simp] theorem Memory.read_nil (a : Nat) : Memory.read [] a = unlistedByte := rfl

theorem Memory.read_cons (k : Nat) (b : Byte) (m : Memory) (a : Nat) :
    Memory.read ((k, b) :: m) a = if k = a then b else m.read a := rfl

theorem Memory.insertCell_read (a c : Nat) (b : Byte) (m : Memory) :
    (Memory.insertCell a b m).read c = if a = c then b else m.read c := by
  induction m with
  | nil => rfl
  | cons hd rest ih =>
    obtain ⟨k, d⟩ := hd
    unfold Memory.insertCell
    by_cases h1 : a < k
    · simp [h1, Memory.read_cons]
    · by_cases h2 : a = k
      · subst h2
        by_cases h3 : a = c <;> simp [h3, Memory.read_cons]
      · simp only [h1, h2, if_false, Memory.read_cons, ih]
        by_cases h3 : k = c
        · simp [h3, show a ≠ c by omega]
        · simp [h3]

theorem Memory.eraseCell_read_other (a c : Nat) (m : Memory) (h : c ≠ a) : (Memory.eraseCell a m).read c = m.read c := by
  unfold Memory.eraseCell
  induction m with
  | nil => rfl
  | cons hd rest ih =>
    obtain ⟨k, d⟩ := hd
    by_cases h1 : k = a
    · rw [List.filter_cons_of_neg (by simp [h1]), ih, Memory.read_cons, if_neg (by omega)]
    · rw [List.filter_cons_of_pos (by simp [h1]), Memory.read_cons, Memory.read_cons, ih]

theorem Memory.eraseCell_read_same (a : Nat) (m : Memory) : (Memory.eraseCell a m).read a = unlistedByte := by
  unfold Memory.eraseCell
  induction m with
  | nil => rfl
  | cons hd rest ih =>
    obtain ⟨k, d⟩ := hd
    by_cases h1 : k = a
    · rw [List.filter_cons_of_neg (by simp [h1]), ih]
    · rw [List.filter_cons_of_pos (by simp [h1]), Memory.read_cons, if_neg h1, ih]

/-- Read after write. -/
theorem Memory.write_read (m : Memory) (a c : Nat) (b : Byte) :
    (m.write a b).read c = if a = c then b else m.read c := by
  unfold Memory.write
  by_cases h : b = unlistedByte
  · simp only [h, if_true]
    by_cases h2 : a = c
    · subst h2; simp [Memory.eraseCell_read_same]
    · simp [h2, Memory.eraseCell_read_other a c m (fun e => h2 e.symm)]
  · simp [h, Memory.insertCell_read]

/-- Reading after a run of writes: the bytes of the run, and every other byte as before. -/
theorem Memory.writeBytes_read (bytes : List Byte) : ∀ (m : Memory) (a c : Nat),
    (m.writeBytes a bytes).read c = if a ≤ c then bytes.getD (c - a) (m.read c) else m.read c := by
  induction bytes with
  | nil => intro m a c; simp [Memory.writeBytes]
  | cons b rest ih =>
    intro m a c
    rw [Memory.writeBytes, ih, Memory.write_read]
    by_cases h : a = c
    · subst h; simp
    · by_cases h2 : a ≤ c
      · obtain ⟨d, rfl⟩ : ∃ d, c = a + 1 + d := ⟨c - (a + 1), by omega⟩
        simp [show a + 1 + d - a = d + 1 by omega, h2, h, show a + 1 + d - (a + 1) = d by omega]
      · simp [h2, show ¬ a + 1 ≤ c by omega, h]

theorem Memory.writeBytes_read_outside (bytes : List Byte) (m : Memory) (a c : Nat)
    (h : c < a ∨ a + bytes.length ≤ c) : (m.writeBytes a bytes).read c = m.read c := by
  rw [Memory.writeBytes_read]
  split
  · rw [List.getD_eq_getElem?_getD, List.getElem?_eq_none (by omega)]; rfl
  · rfl

/-! ### The whole address space -/

/-- The glyph ROM reads as the parameter `GLYPH_ROM` (R23). -/
theorem State.byte_rom (s : State) (a : Nat) (h : a ≤ 0x04F) : s.byte a = s.params.glyphRom[a] := by
  unfold State.byte; rw [dif_pos h]

/-- Above the glyph ROM an address reads as the RAM does (R31). -/
theorem State.byte_ram (s : State) (a : Nat) (h : 0x050 ≤ a) : s.byte a = s.mem.read a := by
  unfold State.byte; rw [dif_neg (by omega)]

/-- What an address reads as depends on the RAM and the parameters alone. -/
theorem State.byte_congr (s t : State) (hm : t.mem = s.mem) (hp : t.params = s.params) (a : Nat) :
    t.byte a = s.byte a := by
  unfold State.byte; rw [hm, hp]

/-- Reading after a run of writes to RAM: the bytes of the run, and every other byte as before. -/
theorem State.byte_writeBytes (s : State) (a c : Nat) (bytes : List Byte) (h : 0x050 ≤ a) :
    ({ s with mem := s.mem.writeBytes a bytes } : State).byte c =
      if a ≤ c then bytes.getD (c - a) (s.byte c) else s.byte c := by
  by_cases hc : c ≤ 0x04F
  · rw [if_neg (by omega), State.byte_rom _ c hc, State.byte_rom s c hc]
  · rw [State.byte_ram _ c (by omega), State.byte_ram s c (by omega), Memory.writeBytes_read]

theorem State.byte_writeBytes_outside (s : State) (a c : Nat) (bytes : List Byte) (h : 0x050 ≤ a)
    (hc : c < a ∨ a + bytes.length ≤ c) :
    ({ s with mem := s.mem.writeBytes a bytes } : State).byte c = s.byte c := by
  rw [State.byte_writeBytes s a c bytes h]
  split
  · rw [List.getD_eq_getElem?_getD, List.getElem?_eq_none (by omega)]; rfl
  · rfl

@[simp] theorem State.bytes_length (s : State) (a n : Nat) : (s.bytes a n).length = n := by
  simp [State.bytes]

theorem State.bytes_getElem? (s : State) (a n k : Nat) (h : k < n) : (s.bytes a n)[k]? = some (s.byte (a + k)) := by
  simp [State.bytes, h]

theorem State.bytes_getD (s : State) (a n k : Nat) (d : Byte) :
    (s.bytes a n).getD k d = if k < n then s.byte (a + k) else d := by
  rw [List.getD_eq_getElem?_getD]
  split
  · rename_i h; rw [State.bytes_getElem? s a n k h]; rfl
  · rename_i h; rw [List.getElem?_eq_none (by simpa using h)]; rfl

/-! ### The canonical form is kept -/

theorem Memory.risesFrom_mono : ∀ (m : Memory) (a b : Nat), a ≤ b → Memory.risesFrom b m = true →
    Memory.risesFrom a m = true
  | [], _, _, _, _ => rfl
  | (k, c) :: rest, a, b, h, hb => by
    simp only [Memory.risesFrom, Bool.and_eq_true, decide_eq_true_eq] at hb ⊢
    exact ⟨by omega, hb.2⟩

theorem Memory.insertCell_risesFrom (a : Nat) (b : Byte) : ∀ (m : Memory) (lo : Nat), lo ≤ a →
    Memory.risesFrom lo m = true → Memory.risesFrom lo (Memory.insertCell a b m) = true
  | [], lo, h, _ => by simpa [Memory.insertCell, Memory.risesFrom] using h
  | (k, c) :: rest, lo, h, hm => by
    simp only [Memory.risesFrom, Bool.and_eq_true, decide_eq_true_eq] at hm
    unfold Memory.insertCell
    by_cases h1 : a < k
    · simp only [h1, if_true, Memory.risesFrom, Bool.and_eq_true, decide_eq_true_eq]
      exact ⟨h, by omega, hm.2⟩
    · by_cases h2 : a = k
      · subst h2
        simp only [h1, if_false, if_true, Memory.risesFrom, Bool.and_eq_true, decide_eq_true_eq]
        exact ⟨h, hm.2⟩
      · simp only [h1, h2, if_false, Memory.risesFrom, Bool.and_eq_true, decide_eq_true_eq]
        exact ⟨hm.1, Memory.insertCell_risesFrom a b rest (k + 1) (by omega) hm.2⟩

theorem Memory.eraseCell_risesFrom (a : Nat) : ∀ (m : Memory) (lo : Nat),
    Memory.risesFrom lo m = true → Memory.risesFrom lo (Memory.eraseCell a m) = true
  | [], _, _ => rfl
  | (k, c) :: rest, lo, hm => by
    simp only [Memory.risesFrom, Bool.and_eq_true, decide_eq_true_eq] at hm
    have ih := Memory.eraseCell_risesFrom a rest (k + 1) hm.2
    unfold Memory.eraseCell at ih ⊢
    by_cases h : k = a
    · rw [List.filter_cons_of_neg (by simp [h])]
      exact Memory.risesFrom_mono _ lo (k + 1) (by omega) ih
    · rw [List.filter_cons_of_pos (by simp [h])]
      simp only [Memory.risesFrom, Bool.and_eq_true, decide_eq_true_eq]
      exact ⟨hm.1, ih⟩

/-- Every cell an insertion leaves is the new one or an old one. -/
theorem Memory.mem_insertCell (a : Nat) (b : Byte) (c : Host.Cell) : ∀ m : Memory,
    c ∈ Memory.insertCell a b m → c = (a, b) ∨ c ∈ m
  | [], h => by simpa [Memory.insertCell] using h
  | (k, d) :: rest, h => by
    unfold Memory.insertCell at h
    split at h
    · simpa using h
    · split at h
      · rcases List.mem_cons.1 h with h | h
        · exact .inl h
        · exact .inr (List.mem_cons_of_mem _ h)
      · rcases List.mem_cons.1 h with h | h
        · exact .inr (by simp [h])
        · rcases Memory.mem_insertCell a b c rest h with h | h
          · exact .inl h
          · exact .inr (List.mem_cons_of_mem _ h)

/-- Every cell a write leaves is the new one or an old one. -/
theorem Memory.mem_write (m : Memory) (a : Nat) (b : Byte) (c : Host.Cell) (h : c ∈ m.write a b) :
    c = (a, b) ∨ c ∈ m := by
  unfold Memory.write at h
  split at h
  · exact .inr (List.mem_filter.1 h).1
  · exact Memory.mem_insertCell a b c m h

/-- A write keeps the canonical form. -/
theorem Memory.write_wf (m : Memory) (a : Nat) (b : Byte) (h : m.wf = true) : (m.write a b).wf = true := by
  simp only [Memory.wf, Bool.and_eq_true] at h ⊢
  constructor
  · unfold Memory.write
    split
    · exact Memory.eraseCell_risesFrom a m 0 h.1
    · exact Memory.insertCell_risesFrom a b m 0 (Nat.zero_le _) h.1
  · rw [List.all_eq_true] at h ⊢
    intro c hc
    by_cases hb : b = unlistedByte
    · rw [Memory.write, if_pos hb] at hc
      exact h.2 c (List.mem_filter.1 hc).1
    · rcases Memory.mem_write m a b c hc with rfl | hm
      · simpa using hb
      · exact h.2 c hm

/-- A run of writes keeps the canonical form. -/
theorem Memory.writeBytes_wf (bytes : List Byte) : ∀ (m : Memory) (a : Nat), m.wf = true →
    (m.writeBytes a bytes).wf = true := by
  induction bytes with
  | nil => intro m a h; exact h
  | cons b rest ih => intro m a h; exact ih _ _ (Memory.write_wf m a b h)

/-- Every cell a run of writes leaves lies in the run or was there before. -/
theorem Memory.mem_writeBytes (bytes : List Byte) : ∀ (m : Memory) (a : Nat) (c : Host.Cell),
    c ∈ m.writeBytes a bytes → (a ≤ c.1 ∧ c.1 < a + bytes.length) ∨ c ∈ m := by
  induction bytes with
  | nil => intro m a c h; exact .inr h
  | cons b rest ih =>
    intro m a c h
    rcases ih _ _ _ h with h | h
    · exact .inl ⟨by omega, by simp only [List.length_cons]; omega⟩
    · rcases Memory.mem_write m a b c h with rfl | h
      · exact .inl ⟨Nat.le_refl _, by simp⟩
      · exact .inr h

/-! ### Equal memories are equal data -/

/-- Below its first address a memory reads as an unlisted address does. -/
theorem Memory.read_below : ∀ (m : Memory) (lo a : Nat), Memory.risesFrom lo m = true → a < lo →
    m.read a = unlistedByte
  | [], _, _, _, _ => rfl
  | (k, b) :: rest, lo, a, h, ha => by
    simp only [Memory.risesFrom, Bool.and_eq_true, decide_eq_true_eq] at h
    rw [Memory.read_cons, if_neg (by omega), Memory.read_below rest (k + 1) a h.2 (by omega)]

theorem Memory.ext_of_rises : ∀ (m m' : Memory) (lo : Nat), Memory.risesFrom lo m = true →
    Memory.risesFrom lo m' = true → (∀ c ∈ m, c.2 ≠ unlistedByte) → (∀ c ∈ m', c.2 ≠ unlistedByte) →
    (∀ a, m.read a = m'.read a) → m = m'
  | [], [], _, _, _, _, _, _ => rfl
  | [], (k, b) :: rest, _, _, _, _, hn', he => by
    have h := he k
    rw [Memory.read_cons, if_pos rfl] at h
    exact absurd h.symm (hn' (k, b) List.mem_cons_self)
  | (k, b) :: rest, [], _, _, _, hn, _, he => by
    have h := he k
    rw [Memory.read_cons, if_pos rfl] at h
    exact absurd h (hn (k, b) List.mem_cons_self)
  | (k, b) :: rest, (k', b') :: rest', lo, hr, hr', hn, hn', he => by
    simp only [Memory.risesFrom, Bool.and_eq_true, decide_eq_true_eq] at hr hr'
    have hk : k = k' := by
      rcases Nat.lt_trichotomy k k' with h | h | h
      · have e := he k
        rw [Memory.read_cons, if_pos rfl, Memory.read_cons, if_neg (by omega),
          Memory.read_below rest' (k' + 1) k hr'.2 (by omega)] at e
        exact absurd e (hn (k, b) List.mem_cons_self)
      · exact h
      · have e := he k'
        rw [Memory.read_cons, if_neg (by omega), Memory.read_below rest (k + 1) k' hr.2 (by omega),
          Memory.read_cons, if_pos rfl] at e
        exact absurd e.symm (hn' (k', b') List.mem_cons_self)
    subst hk
    have hb : b = b' := by simpa [Memory.read_cons] using he k
    subst hb
    have ht : rest = rest' := Memory.ext_of_rises rest rest' (k + 1) hr.2 hr'.2
      (fun c hc => hn c (List.mem_cons_of_mem _ hc)) (fun c hc => hn' c (List.mem_cons_of_mem _ hc)) fun a => by
        have e := he a
        rw [Memory.read_cons, Memory.read_cons] at e
        by_cases h : k = a
        · subst h
          rw [Memory.read_below rest (k + 1) k hr.2 (by omega), Memory.read_below rest' (k + 1) k hr'.2 (by omega)]
        · rwa [if_neg h, if_neg h] at e
    rw [ht]

/-- Two canonical memories that read alike are equal. -/
theorem Memory.ext_of_wf (m m' : Memory) (h : m.wf = true) (h' : m'.wf = true) (he : ∀ a, m.read a = m'.read a) :
    m = m' := by
  simp only [Memory.wf, Bool.and_eq_true, List.all_eq_true, bne_iff_ne] at h h'
  exact Memory.ext_of_rises m m' 0 h.1 h'.1 h.2 h'.2 he

/-! ### The two access primitives -/

/-- Everything `MemRead` can do (R33). -/
theorem State.memRead_ok (s : State) (addr n : Nat) (h : n = 0 ∨ addr + n ≤ 0x1000) :
    s.memRead addr n = .ok (s.bytes addr n) := by
  unfold State.memRead
  rw [if_neg (by omega)]

theorem State.memRead_fault (s : State) (addr n : Nat) (h0 : 0 < n) (h : 0x1000 < addr + n) :
    s.memRead addr n = .error .memReadOutOfRange := by
  unfold State.memRead
  rw [if_pos (by omega)]

/-- Everything `MemWrite` can do (R34). -/
theorem State.memWrite_ok (s : State) (addr : Nat) (bytes : List Byte) (h1 : 0x050 ≤ addr)
    (h2 : addr + bytes.length ≤ 0x1000) :
    s.memWrite addr bytes = .ok { s with mem := s.mem.writeBytes addr bytes } := by
  unfold State.memWrite
  rw [if_neg (by omega), if_neg (by omega)]

theorem State.memWrite_outOfRange (s : State) (addr : Nat) (bytes : List Byte) (h : 0x1000 < addr + bytes.length) : s.memWrite addr bytes = .error .memWriteOutOfRange := by
  unfold State.memWrite
  rw [if_pos (by omega)]

theorem State.memWrite_glyphRom (s : State) (addr : Nat) (bytes : List Byte) (h : addr ≤ 0x04F)
    (hl : bytes.length ≤ 16) : s.memWrite addr bytes = .error .glyphRomWrite := by
  unfold State.memWrite
  rw [if_neg (by omega), if_pos h]

/-- `MemWrite` answers `ok` only after both checks. -/
theorem State.memWrite_inv (s s' : State) (addr : Nat) (bytes : List Byte) (h : s.memWrite addr bytes = .ok s') :
    0x050 ≤ addr ∧ addr + bytes.length - 1 ≤ 0xFFF ∧ s' = { s with mem := s.mem.writeBytes addr bytes } := by
  unfold State.memWrite at h
  split at h
  · cases h
  · split at h
    · cases h
    · cases h; exact ⟨by omega, by omega, rfl⟩

end Sys2Proof.Machine
end

