-- ==== Sys2Proof/Laws/Display.lean ====
section
/-!
SUPPORT. The framebuffer: what a toggle changes, which cells a sprite names, and that it names none twice
(spec/44_display.md rules R115 to R118).
-/

namespace Sys2Proof.Machine

@[simp] theorem Video.dark_cell (px : Fin 64) (py : Fin 32) : Video.dark.cell px py = false := by
  simp [Video.cell, Video.dark]

/-- The cells a draw names do not depend on the latch and advance of its own cycle. -/
@[simp] theorem State.latchAndAdvance_drawnCells (s : State) (w : Word) (x y : Nibble) (rows : List Byte) :
    (s.latchAndAdvance w).drawnCells x y rows = s.drawnCells x y rows := rfl

/-- A toggle inverts its own cell and leaves the others alone. -/
theorem Video.toggle_cell (v : Video) (px qx : Fin 64) (py qy : Fin 32) :
    (v.toggle px py).cell qx qy = if qx = px ∧ qy = py then !v.cell qx qy else v.cell qx qy := by
  simp only [Video.cell, Video.toggle, Fin.getElem_fin, Vector.getElem_set]
  by_cases hy : qy = py
  · subst hy
    by_cases hx : qx = px
    · subst hx; simp [BitVec.getElem_twoPow]
    · have : qx.val ≠ px.val := fun e => hx (Fin.ext e)
      simp [BitVec.getElem_twoPow, hx, this]
  · have : ¬ py.val = qy.val := fun e => hy (Fin.ext e.symm)
    simp [this, hy]

/-- Toggling a list that names no cell twice inverts exactly the cells it names. -/
theorem Video.toggleAll_cell (cells : List (Fin 64 × Fin 32)) : ∀ (v : Video) (qx : Fin 64) (qy : Fin 32),
    cells.Nodup → (v.toggleAll cells).cell qx qy = if (qx, qy) ∈ cells then !v.cell qx qy else v.cell qx qy := by
  induction cells with
  | nil => intro v qx qy _; simp [Video.toggleAll]
  | cons c rest ih =>
    intro v qx qy hn
    rw [List.nodup_cons] at hn
    have step : v.toggleAll (c :: rest) = (v.toggle c.1 c.2).toggleAll rest := rfl
    rw [step, ih _ _ _ hn.2, Video.toggle_cell]
    by_cases h : (qx, qy) = c
    · subst h; simp [hn.1]
    · have h' : ¬ (qx = c.1 ∧ qy = c.2) := fun e => h (Prod.ext e.1 e.2)
      simp [h, h']

/-- The pixels one sprite row asks for. -/
theorem mem_rowPixels (x0 py : Nat) (b : Byte) (p : Nat × Nat) :
    p ∈ rowPixels x0 py b ↔ ∃ c, c < 8 ∧ b.getLsbD (7 - c) = true ∧ p = (x0 + c, py) := by
  simp only [rowPixels, List.mem_map, List.mem_filter, List.mem_range]
  constructor
  · rintro ⟨c, ⟨h1, h2⟩, rfl⟩; exact ⟨c, h1, h2, rfl⟩
  · rintro ⟨c, h1, h2, rfl⟩; exact ⟨c, ⟨h1, h2⟩, rfl⟩

/-- The pixels a sprite asks for: row `r`, column `c`, for every set bit. -/
theorem mem_spritePixels (x0 : Nat) (rows : List Byte) : ∀ (y0 : Nat) (p : Nat × Nat),
    p ∈ spritePixels x0 y0 rows ↔
      ∃ r c, r < rows.length ∧ c < 8 ∧ (rows.getD r 0).getLsbD (7 - c) = true ∧ p = (x0 + c, y0 + r) := by
  induction rows with
  | nil => intro y0 p; simp [spritePixels]
  | cons b rest ih =>
    intro y0 p
    rw [spritePixels, List.mem_append, mem_rowPixels, ih]
    constructor
    · rintro (⟨c, h1, h2, rfl⟩ | ⟨r, c, h1, h2, h3, rfl⟩)
      · exact ⟨0, c, by simp, h1, by simpa using h2, rfl⟩
      · exact ⟨r + 1, c, by simpa using h1, h2, by simpa using h3, by simp; omega⟩
    · rintro ⟨r, c, h1, h2, h3, rfl⟩
      cases r with
      | zero => exact .inl ⟨c, h2, by simpa using h3, rfl⟩
      | succ r => exact .inr ⟨r, c, by simpa using h1, h2, by simpa using h3, by simp; omega⟩

theorem rowPixels_nodup (x0 py : Nat) (b : Byte) : (rowPixels x0 py b).Nodup := by
  unfold rowPixels
  refine List.Nodup.map (fun a c h => ?_) (List.Nodup.filter _ List.nodup_range)
  simpa using h

theorem spritePixels_nodup (x0 : Nat) (rows : List Byte) : ∀ y0, (spritePixels x0 y0 rows).Nodup := by
  induction rows with
  | nil => intro y0; exact List.nodup_nil
  | cons b rest ih =>
    intro y0
    rw [spritePixels, List.nodup_append]
    refine ⟨rowPixels_nodup _ _ _, ih _, ?_⟩
    intro p hp q hq e
    subst e
    obtain ⟨c, _, _, rfl⟩ := (mem_rowPixels _ _ _ _).1 hp
    obtain ⟨r, c', _, _, _, e⟩ := (mem_spritePixels _ _ _ _).1 hq
    have := congrArg Prod.snd e
    simp at this
    omega

/-- A sprite of at most 32 rows names no cell twice, under either edge policy (R116). -/
theorem spriteCells_nodup (edge : DrawEdge) (x0 y0 : Nat) (rows : List Byte) (h : rows.length ≤ 32) :
    (spriteCells edge x0 y0 rows).Nodup := by
  unfold spriteCells
  rw [List.Nodup, List.pairwise_filterMap]
  refine List.Pairwise.imp_of_mem ?_ (spritePixels_nodup x0 rows y0)
  intro p q hp hq hne b hb b' hb' e
  subst e
  obtain ⟨r, c, hr, hc, _, rfl⟩ := (mem_spritePixels _ _ _ _).1 hp
  obtain ⟨r', c', hr', hc', _, rfl⟩ := (mem_spritePixels _ _ _ _).1 hq
  apply hne
  cases edge with
  | wrap =>
    simp only [placePixel, Option.some.injEq] at hb hb'
    have h1 := congrArg (fun u => u.1.val) (hb.trans hb'.symm)
    have h2 := congrArg (fun u => u.2.val) (hb.trans hb'.symm)
    simp [Fin.ofNat] at h1 h2
    rw [show c = c' by omega, show r = r' by omega]
  | clip =>
    simp only [placePixel] at hb hb'
    split at hb <;> split at hb' <;> simp only [Option.some.injEq, reduceCtorEq] at hb hb'
    have h1 := congrArg (fun u => u.1.val) (hb.trans hb'.symm)
    have h2 := congrArg (fun u => u.2.val) (hb.trans hb'.symm)
    simp at h1 h2
    rw [h1, h2]

end Sys2Proof.Machine
end

