-- ==== Sys2Proof/Laws/Fields.lean ====
section
/-!
SUPPORT. The fields of a word put together from its parts, one lemma per field and shape of encoding
(spec/30_encoding.md rules R51, R52, R54), and the words put together again from their fields.
-/

namespace Sys2Proof

/-! ### Shape `family x y n` -/

@[simp] theorem family_xyn (f x y n : Nibble) : family (f ++ x ++ y ++ n) = f := by
  change (f ++ x ++ y ++ n : BitVec (4 + 4 + 4 + 4)).extractLsb' 12 4 = f
  ext i hi; interval_cases i <;> simp only [BitVec.getElem_extractLsb', BitVec.getLsbD_append] <;> rfl

@[simp] theorem fieldX_xyn (f x y n : Nibble) : fieldX (f ++ x ++ y ++ n) = x := by
  change (f ++ x ++ y ++ n : BitVec (4 + 4 + 4 + 4)).extractLsb' 8 4 = x
  ext i hi; interval_cases i <;> simp only [BitVec.getElem_extractLsb', BitVec.getLsbD_append] <;> rfl

@[simp] theorem fieldY_xyn (f x y n : Nibble) : fieldY (f ++ x ++ y ++ n) = y := by
  change (f ++ x ++ y ++ n : BitVec (4 + 4 + 4 + 4)).extractLsb' 4 4 = y
  ext i hi; interval_cases i <;> simp only [BitVec.getElem_extractLsb', BitVec.getLsbD_append] <;> rfl

@[simp] theorem fieldN_xyn (f x y n : Nibble) : fieldN (f ++ x ++ y ++ n) = n := by
  change (f ++ x ++ y ++ n : BitVec (4 + 4 + 4 + 4)).extractLsb' 0 4 = n
  ext i hi; interval_cases i <;> simp only [BitVec.getElem_extractLsb', BitVec.getLsbD_append] <;> rfl

/-! ### Shape `family x kk` -/

@[simp] theorem family_xkk (f x : Nibble) (kk : Byte) : family (f ++ x ++ kk) = f := by
  change (f ++ x ++ kk : BitVec (4 + 4 + 8)).extractLsb' 12 4 = f
  ext i hi; interval_cases i <;> simp only [BitVec.getElem_extractLsb', BitVec.getLsbD_append] <;> rfl

@[simp] theorem fieldX_xkk (f x : Nibble) (kk : Byte) : fieldX (f ++ x ++ kk) = x := by
  change (f ++ x ++ kk : BitVec (4 + 4 + 8)).extractLsb' 8 4 = x
  ext i hi; interval_cases i <;> simp only [BitVec.getElem_extractLsb', BitVec.getLsbD_append] <;> rfl

@[simp] theorem fieldKk_xkk (f x : Nibble) (kk : Byte) : fieldKk (f ++ x ++ kk) = kk := by
  change (f ++ x ++ kk : BitVec (4 + 4 + 8)).extractLsb' 0 8 = kk
  ext i hi; interval_cases i <;> simp only [BitVec.getElem_extractLsb', BitVec.getLsbD_append] <;> rfl

/-! ### Shape `family nnn` -/

@[simp] theorem family_nnn (f : Nibble) (nnn : Addr12) : family (f ++ nnn) = f := by
  change (f ++ nnn : BitVec (4 + 12)).extractLsb' 12 4 = f
  ext i hi; interval_cases i <;> simp only [BitVec.getElem_extractLsb', BitVec.getLsbD_append] <;> rfl

@[simp] theorem fieldNnn_nnn (f : Nibble) (nnn : Addr12) : fieldNnn (f ++ nnn) = nnn := by
  change (f ++ nnn : BitVec (4 + 12)).extractLsb' 0 12 = nnn
  ext i hi; interval_cases i <;> simp only [BitVec.getElem_extractLsb', BitVec.getLsbD_append] <;> rfl

/-! ### Shape `family mid n` -/

@[simp] theorem family_mid (f : Nibble) (mid : Byte) (n : Nibble) : family (f ++ mid ++ n) = f := by
  change (f ++ mid ++ n : BitVec (4 + 8 + 4)).extractLsb' 12 4 = f
  ext i hi; interval_cases i <;> simp only [BitVec.getElem_extractLsb', BitVec.getLsbD_append] <;> rfl

@[simp] theorem fieldMid_mid (f : Nibble) (mid : Byte) (n : Nibble) : fieldMid (f ++ mid ++ n) = mid := by
  change (f ++ mid ++ n : BitVec (4 + 8 + 4)).extractLsb' 4 8 = mid
  ext i hi; interval_cases i <;> simp only [BitVec.getElem_extractLsb', BitVec.getLsbD_append] <;> rfl

@[simp] theorem fieldN_mid (f : Nibble) (mid : Byte) (n : Nibble) : fieldN (f ++ mid ++ n) = n := by
  change (f ++ mid ++ n : BitVec (4 + 8 + 4)).extractLsb' 0 4 = n
  ext i hi; interval_cases i <;> simp only [BitVec.getElem_extractLsb', BitVec.getLsbD_append] <;> rfl

/-! ### Words from their fields -/

theorem word_eq_xyn (w : Word) : family w ++ fieldX w ++ fieldY w ++ fieldN w = w := by
  change (w.extractLsb' 12 4 ++ w.extractLsb' 8 4 ++ w.extractLsb' 4 4 ++ w.extractLsb' 0 4 : BitVec (4 + 4 + 4 + 4)) = w
  ext i hi; change i < 16 at hi
  interval_cases i <;> simp only [BitVec.getElem_append, BitVec.getElem_extractLsb'] <;> rfl

theorem word_eq_xkk (w : Word) : family w ++ fieldX w ++ fieldKk w = w := by
  change (w.extractLsb' 12 4 ++ w.extractLsb' 8 4 ++ w.extractLsb' 0 8 : BitVec (4 + 4 + 8)) = w
  ext i hi; change i < 16 at hi
  interval_cases i <;> simp only [BitVec.getElem_append, BitVec.getElem_extractLsb'] <;> rfl

theorem word_eq_nnn (w : Word) : family w ++ fieldNnn w = w := by
  change (w.extractLsb' 12 4 ++ w.extractLsb' 0 12 : BitVec (4 + 12)) = w
  ext i hi; change i < 16 at hi
  interval_cases i <;> simp only [BitVec.getElem_append, BitVec.getElem_extractLsb'] <;> rfl

theorem word_eq_mid (w : Word) : family w ++ fieldMid w ++ fieldN w = w := by
  change (w.extractLsb' 12 4 ++ w.extractLsb' 4 8 ++ w.extractLsb' 0 4 : BitVec (4 + 8 + 4)) = w
  ext i hi; change i < 16 at hi
  interval_cases i <;> simp only [BitVec.getElem_append, BitVec.getElem_extractLsb'] <;> rfl

/-- A word is the two bytes memory holds it in (R50). -/
@[simp] theorem wordOfBytes_bytes (w : Word) : wordOfBytes (hiByte w) (loByte w) = w := by
  change (w.extractLsb' 8 8 ++ w.extractLsb' 0 8 : BitVec (8 + 8)) = w
  ext i hi; change i < 16 at hi
  interval_cases i <;> simp only [BitVec.getElem_append, BitVec.getElem_extractLsb'] <;> rfl

@[simp] theorem hiByte_wordOfBytes (hi lo : Byte) : hiByte (wordOfBytes hi lo) = hi := by
  change (hi ++ lo : BitVec (8 + 8)).extractLsb' 8 8 = hi
  ext i h; interval_cases i <;> simp only [BitVec.getElem_extractLsb', BitVec.getLsbD_append] <;> rfl

@[simp] theorem loByte_wordOfBytes (hi lo : Byte) : loByte (wordOfBytes hi lo) = lo := by
  change (hi ++ lo : BitVec (8 + 8)).extractLsb' 0 8 = lo
  ext i h; interval_cases i <;> simp only [BitVec.getElem_extractLsb', BitVec.getLsbD_append] <;> rfl

/-! ### Masks -/

/-- Two words with the same four nibbles are the same word. -/
theorem word_ext (v w : Word) (h1 : family v = family w) (h2 : fieldX v = fieldX w) (h3 : fieldY v = fieldY w)
    (h4 : fieldN v = fieldN w) : v = w := by
  rw [← word_eq_xyn v, ← word_eq_xyn w, h1, h2, h3, h4]

/-- The low byte is the two low nibbles (R51: `kk = {y, n}`). -/
theorem fieldKk_eq_append (w : Word) : fieldKk w = fieldY w ++ fieldN w := by
  symm
  change (w.extractLsb' 4 4 ++ w.extractLsb' 0 4 : BitVec (4 + 4)) = w.extractLsb' 0 8
  ext i hi; change i < 8 at hi
  interval_cases i <;> simp only [BitVec.getElem_append, BitVec.getElem_extractLsb'] <;> rfl

theorem family_and (v w : Word) : family (v &&& w) = family v &&& family w := by
  unfold family; ext i hi; simp

theorem fieldX_and (v w : Word) : fieldX (v &&& w) = fieldX v &&& fieldX w := by
  unfold fieldX; ext i hi; simp

theorem fieldY_and (v w : Word) : fieldY (v &&& w) = fieldY v &&& fieldY w := by
  unfold fieldY; ext i hi; simp

theorem fieldN_and (v w : Word) : fieldN (v &&& w) = fieldN v &&& fieldN w := by
  unfold fieldN; ext i hi; simp

theorem nibble_and_ones (n : Nibble) : n &&& 0xF#4 = n := by revert n; decide

theorem nibble_and_zero (n : Nibble) : n &&& 0x0#4 = 0x0#4 := by revert n; decide

/-- Masking with 0xF000 compares the family. -/
theorem mask_family (w p : Word) (h : p = family p ++ 0x0#4 ++ 0x0#4 ++ 0x0#4) :
    w &&& 0xF000#16 = p ↔ family w = family p := by
  have m : family 0xF000#16 = 0xF#4 ∧ fieldX 0xF000#16 = 0x0#4 ∧ fieldY 0xF000#16 = 0x0#4 ∧ fieldN 0xF000#16 = 0x0#4 := by
    decide
  constructor
  · intro e
    rw [← e, family_and, m.1, nibble_and_ones]
  · intro e
    rw [h]
    refine word_ext _ _ ?_ ?_ ?_ ?_ <;>
      simp only [family_and, fieldX_and, fieldY_and, fieldN_and, m, family_xyn, fieldX_xyn, fieldY_xyn, fieldN_xyn,
        nibble_and_ones, nibble_and_zero, e]

/-- Masking with 0xF00F compares the family and the low nibble. -/
theorem mask_family_n (w p : Word) (h : p = family p ++ 0x0#4 ++ 0x0#4 ++ fieldN p) :
    w &&& 0xF00F#16 = p ↔ family w = family p ∧ fieldN w = fieldN p := by
  have m : family 0xF00F#16 = 0xF#4 ∧ fieldX 0xF00F#16 = 0x0#4 ∧ fieldY 0xF00F#16 = 0x0#4 ∧ fieldN 0xF00F#16 = 0xF#4 := by
    decide
  constructor
  · intro e
    rw [← e, family_and, fieldN_and, m.1, m.2.2.2, nibble_and_ones, nibble_and_ones]
    exact ⟨rfl, rfl⟩
  · rintro ⟨e1, e2⟩
    rw [h]
    refine word_ext _ _ ?_ ?_ ?_ ?_ <;>
      simp only [family_and, fieldX_and, fieldY_and, fieldN_and, m, family_xyn, fieldX_xyn, fieldY_xyn, fieldN_xyn,
        nibble_and_ones, nibble_and_zero, e1, e2]

/-- Masking with 0xF0FF compares the family and the low byte. -/
theorem mask_family_kk (w p : Word) (h : p = family p ++ 0x0#4 ++ fieldY p ++ fieldN p) :
    w &&& 0xF0FF#16 = p ↔ family w = family p ∧ fieldKk w = fieldKk p := by
  have m : family 0xF0FF#16 = 0xF#4 ∧ fieldX 0xF0FF#16 = 0x0#4 ∧ fieldY 0xF0FF#16 = 0xF#4 ∧ fieldN 0xF0FF#16 = 0xF#4 := by
    decide
  constructor
  · intro e
    rw [← e, fieldKk_eq_append, fieldKk_eq_append, family_and, fieldY_and, fieldN_and, m.1, m.2.2.1, m.2.2.2,
      nibble_and_ones, nibble_and_ones, nibble_and_ones]
    exact ⟨rfl, rfl⟩
  · rintro ⟨e1, e2⟩
    have hy : ∀ v : Word, fieldY v = (fieldKk v).extractLsb' 4 4 := fun v => by
      unfold fieldY fieldKk; ext i hi; interval_cases i <;> simp
    have hn : ∀ v : Word, fieldN v = (fieldKk v).extractLsb' 0 4 := fun v => by
      unfold fieldN fieldKk; ext i hi; interval_cases i <;> simp
    rw [h]
    refine word_ext _ _ ?_ ?_ ?_ ?_ <;>
      simp only [family_and, fieldX_and, fieldY_and, fieldN_and, m, family_xyn, fieldX_xyn, fieldY_xyn, fieldN_xyn,
        nibble_and_ones, nibble_and_zero, e1]
    · rw [hy, e2, ← hy]
    · rw [hn, e2, ← hn]

end Sys2Proof
end

