-- ==== Sys2Proof/Laws/Cycle.lean ====
section
/-!
SUPPORT. What the shared operations of a cycle can do, one lemma each: push and pop, the skip, the key tests, the frame
of every instruction, the fetch, the halted core, and what `withFetchWord` prepares.
-/

namespace Sys2Proof.Machine

/-! ### The call stack -/

theorem State.push_ok (s : State) (v : Word) (h : s.sp.val < 16) :
    s.push v = .ok { s with stack := s.stack.set s.sp.val v h, sp := ⟨s.sp.val + 1, by omega⟩ } := by
  unfold State.push; rw [dif_pos h]

theorem State.push_full (s : State) (v : Word) (h : s.sp.val = 16) : s.push v = .error .stackOverflow := by
  unfold State.push; rw [dif_neg (by omega)]

theorem State.pop_ok (s : State) (h : s.sp.val ≠ 0) :
    s.pop = .ok (s.stack[s.sp.val - 1]'(by have := s.sp.isLt; omega),
      { s with sp := ⟨s.sp.val - 1, by have := s.sp.isLt; omega⟩ }) := by
  unfold State.pop; rw [dif_neg h]

theorem State.pop_empty (s : State) (h : s.sp.val = 0) : s.pop = .error .stackUnderflow := by
  unfold State.pop; rw [dif_pos h]

/-! ### Skips and key tests -/

theorem State.skipIf_true (s : State) : s.skipIf true = s.setPc (s.pc + 2) := rfl

theorem State.skipIf_false (s : State) : s.skipIf false = s := rfl

theorem keyIndex_ok (v : Byte) (h : v.toNat < 16) : keyIndex v = .ok ⟨v.toNat, h⟩ := by
  unfold keyIndex; rw [dif_pos h]

theorem keyIndex_fault (v : Byte) (h : 16 ≤ v.toNat) : keyIndex v = .error .keyIndexOutOfRange := by
  unfold keyIndex; rw [dif_neg (by omega)]

/-- The lowest pressed key, when one is pressed (R122). -/
theorem State.lowestKey_some (s : State) (k : Fin 16) (h : s.lowestKey = some k) :
    s.keyDown k = true ∧ ∀ j < k, s.keyDown j = false := by
  unfold State.lowestKey at h
  rw [List.find?_eq_some_iff_getElem] at h
  obtain ⟨hk, i, hi, hik, hlt⟩ := h
  refine ⟨hk, fun j hj => ?_⟩
  have hi' : i = k.val := by
    have := congrArg Fin.val hik
    simpa using this
  have hji : j.val < i := by rw [hi']; exact hj
  simpa using hlt j.val hji

theorem State.lowestKey_none (s : State) (h : s.lowestKey = none) : ∀ k, s.keyDown k = false := by
  unfold State.lowestKey at h
  rw [List.find?_eq_none] at h
  intro k
  simpa using h k (List.mem_finRange k)

/-! ### The frame of every instruction -/

theorem State.runCycle_ok (s t : State) (w : Word) (e : Effect) (h : e (s.latchAndAdvance w) = .ok t) :
    s.runCycle w e = .next t.tickTimers := by
  unfold State.runCycle; rw [h]

theorem State.runCycle_error (s : State) (w : Word) (e : Effect) (c : Fault)
    (h : e (s.latchAndAdvance w) = .error c) : s.runCycle w e = .next (s.raise c (some w)) := by
  unfold State.runCycle; rw [h]

/-- Everything a cycle after the fetch can do: complete with its timer step, or latch a fault and nothing else. -/
theorem State.runCycle_cases (s : State) (w : Word) (e : Effect) (o : Host.Outcome State Fault Refusal)
    (h : s.runCycle w e = o) :
    (∃ t, e (s.latchAndAdvance w) = .ok t ∧ o = .next t.tickTimers) ∨
    (∃ c, e (s.latchAndAdvance w) = .error c ∧ o = .next (s.raise c (some w))) := by
  subst h
  cases he : e (s.latchAndAdvance w) with
  | ok t => exact .inl ⟨t, rfl, s.runCycle_ok t w e he⟩
  | error c => exact .inr ⟨c, rfl, s.runCycle_error w e c he⟩

/-- A timer step lowers a timer by one and stops at 0. -/
theorem tick_toNat (t : Byte) : (tick t).toNat = t.toNat - 1 := by
  unfold tick
  by_cases h : t = 0
  · subst h; rfl
  · have h0 : t.toNat ≠ 0 := fun e => h (BitVec.eq_of_toNat_eq (by simpa using e))
    rw [if_neg h, BitVec.toNat_sub_of_le (by rw [BitVec.le_def]; simp; omega)]
    simp

/-! ### The fetch and the cycle -/

theorem State.fetch_ok (s : State) (h : s.pc.toNat ≤ 0xFFE) :
    s.fetch = .ok (wordOfBytes (s.byte s.pc.toNat) (s.byte (s.pc.toNat + 1))) := by
  unfold State.fetch; rw [if_neg (by omega)]

theorem State.fetch_fault (s : State) (h : 0xFFE < s.pc.toNat) : s.fetch = .error .fetchOutOfRange := by
  unfold State.fetch; rw [if_pos h]

theorem cycle_halted (s : State) (h : s.fault ≠ none) : cycle s = .next s := by
  unfold cycle; rw [if_pos (by rwa [Option.isSome_iff_ne_none])]

theorem cycle_fetched (s : State) (w : Word) (h : s.fault = none) (hw : s.fetch = .ok w) :
    cycle s = exec (decodeWord w) s := by
  unfold cycle; rw [if_neg (by simp [h]), hw]

theorem cycle_fetchFault (s : State) (c : Fault) (h : s.fault = none) (hw : s.fetch = .error c) :
    cycle s = .next (s.raise c none) := by
  unfold cycle; rw [if_neg (by simp [h]), hw]

/-- The host's move before a cycle does not touch what the fetch reads. -/
@[simp] theorem State.takeKeys_fetch (s : State) : s.takeKeys.fetch = s.fetch := by
  unfold State.fetch; rw [State.takeKeys_pc, State.takeKeys_byte, State.takeKeys_byte]

/-- `placeWord` puts the word where the next fetch reads it. -/
theorem State.placeWord_fetch (s : State) (w : Word) : (s.placeWord w).fetch = .ok w := by
  have hpc : 0x050 ≤ (s.placeWord w).pc.toNat ∧ (s.placeWord w).pc.toNat ≤ 0xFFE := by
    unfold State.placeWord
    dsimp only
    split
    · assumption
    · decide
  rw [State.fetch_ok _ hpc.2, State.byte_ram _ _ hpc.1, State.byte_ram _ _ (by omega)]
  unfold State.placeWord
  dsimp only
  rw [Memory.writeBytes_read, Memory.writeBytes_read]
  simp

/-- The step after `withFetchWord` runs exactly the instruction placed. -/
theorem step_withFetchWord (s : State) (nbits w : Nat) :
    step (s.withFetchWord nbits w) =
      exec (decodeWord (BitVec.ofNat 16 (w % 2 ^ nbits))) (s.withFetchWord nbits w).takeKeys := by
  unfold step
  refine cycle_fetched _ _ ?_ ?_
  · rw [State.takeKeys_fault]; rfl
  · rw [State.takeKeys_fetch]; exact State.placeWord_fetch _ _

end Sys2Proof.Machine
end

