-- ==== Sys2Proof/Laws/Exec.lean ====
section
/-!
SUPPORT. Every instruction is one execute step in the frame of the cycle: the step of each, the equation that says so,
and what a completing or a faulting instruction leaves (spec/40_cycle_and_dispatch.md rules R70 to R75,
spec/60_exceptions.md rule R132).
-/

namespace Sys2Proof.Machine

/-- The execute step of an instruction (R74). -/
def effectOf : Instr → Effect
  | .cls _ => clsEffect
  | .ret _ => retEffect
  | .jp nnn => jpEffect nnn
  | .call nnn => callEffect nnn
  | .seVxKk x kk => seVxKkEffect x kk
  | .sneVxKk x kk => sneVxKkEffect x kk
  | .seVxVy x y _ => seVxVyEffect x y
  | .ldVxKk x kk => ldVxKkEffect x kk
  | .addVxKk x kk => addVxKkEffect x kk
  | .ldVxVy x y => ldVxVyEffect x y
  | .or x y => orEffect x y
  | .and x y => andEffect x y
  | .xor x y => xorEffect x y
  | .addVxVy x y => addVxVyEffect x y
  | .sub x y => subEffect x y
  | .shr x _ => shrEffect x
  | .subn x y => subnEffect x y
  | .shl x _ => shlEffect x
  | .sneVxVy x y _ => sneVxVyEffect x y
  | .ldINnn nnn => ldINnnEffect nnn
  | .jpV0 nnn => jpV0Effect nnn
  | .rnd x kk => rndEffect x kk
  | .drw x y n => drwEffect x y n
  | .skp x _ => skpEffect x
  | .sknp x _ => sknpEffect x
  | .ldVxDt x => ldVxDtEffect x
  | .ldVxK x => ldVxKEffect x
  | .ldDtVx x => ldDtVxEffect x
  | .ldStVx x => ldStVxEffect x
  | .addIVx x => addIVxEffect x
  | .ldFVx x => ldFVxEffect x
  | .ldBVx x => ldBVxEffect x
  | .ldImemVx x => ldImemVxEffect x
  | .ldVxImem x => ldVxImemEffect x
  | .nopS4 _ _ => nopEffect
  | .nopXys _ _ _ => nopEffect
  | .nopXs4 _ _ _ => nopEffect
  | .nopXs8 _ _ => nopEffect

/-- Every arm of `exec` is its execute step in the frame of the cycle. -/
theorem exec_eq (i : Instr) (s : State) : exec i s = s.runCycle (encode i) (effectOf i) := by
  cases i <;> rfl

/-- Everything `exec` can do: complete with its timer step, or latch a fault and nothing else. -/
theorem exec_cases (i : Instr) (s t : State) (h : exec i s = .next t) :
    (∃ u, effectOf i (s.latchAndAdvance (encode i)) = .ok u ∧ t = u.tickTimers) ∨
    (∃ c, effectOf i (s.latchAndAdvance (encode i)) = .error c ∧ t = s.raise c (some (encode i))) := by
  rw [exec_eq] at h
  rcases s.runCycle_cases _ _ _ h with ⟨u, h1, h2⟩ | ⟨c, h1, h2⟩
  · cases h2; exact .inl ⟨u, h1, rfl⟩
  · cases h2; exact .inr ⟨c, h1, rfl⟩

/-! ### Each execute step that can fault: when it completes and with what, when it faults -/

theorem retEffect_ok (s : State) (h : s.sp.val ≠ 0) : retEffect s = .ok { s with
    pc := s.stack[s.sp.val - 1]'(by have := s.sp.isLt; omega)
    sp := ⟨s.sp.val - 1, by have := s.sp.isLt; omega⟩ } := by
  simp only [retEffect, State.pop_ok s h]; rfl

theorem retEffect_fault (s : State) (h : s.sp.val = 0) : retEffect s = .error .stackUnderflow := by
  simp only [retEffect, State.pop_empty s h]

theorem callEffect_ok (nnn : Addr12) (s : State) (h : s.sp.val < 16) : callEffect nnn s = .ok { s with
    pc := target nnn
    stack := s.stack.set s.sp.val s.pc h
    sp := ⟨s.sp.val + 1, by omega⟩ } := by
  simp only [callEffect, State.push_ok s s.pc h]; rfl

theorem callEffect_fault (nnn : Addr12) (s : State) (h : s.sp.val = 16) :
    callEffect nnn s = .error .stackOverflow := by
  simp only [callEffect, State.push_full s s.pc h]

/-- A skip moves `pc` or nothing. -/
theorem State.skipIf_eq (s : State) (c : Bool) : s.skipIf c = { s with pc := if c then s.pc + 2 else s.pc } := by
  cases c <;> rfl

theorem seVxKkEffect_eq (x : Nibble) (kk : Byte) (s : State) :
    seVxKkEffect x kk s = .ok { s with pc := if s.reg x = kk then s.pc + 2 else s.pc } := by
  simp only [seVxKkEffect, State.skipIf_eq, decide_eq_true_eq]

theorem sneVxKkEffect_eq (x : Nibble) (kk : Byte) (s : State) :
    sneVxKkEffect x kk s = .ok { s with pc := if s.reg x ≠ kk then s.pc + 2 else s.pc } := by
  simp only [sneVxKkEffect, State.skipIf_eq, decide_eq_true_eq]

theorem seVxVyEffect_eq (x y : Nibble) (s : State) :
    seVxVyEffect x y s = .ok { s with pc := if s.reg x = s.reg y then s.pc + 2 else s.pc } := by
  simp only [seVxVyEffect, State.skipIf_eq, decide_eq_true_eq]

theorem sneVxVyEffect_eq (x y : Nibble) (s : State) :
    sneVxVyEffect x y s = .ok { s with pc := if s.reg x ≠ s.reg y then s.pc + 2 else s.pc } := by
  simp only [sneVxVyEffect, State.skipIf_eq, decide_eq_true_eq]

theorem skpEffect_ok (x : Nibble) (s : State) (h : (s.reg x).toNat < 16) :
    skpEffect x s = .ok (s.skipIf (s.keyDown ⟨(s.reg x).toNat, h⟩)) := by
  simp only [skpEffect, keyIndex_ok _ h]

theorem skpEffect_fault (x : Nibble) (s : State) (h : 16 ≤ (s.reg x).toNat) :
    skpEffect x s = .error .keyIndexOutOfRange := by
  simp only [skpEffect, keyIndex_fault _ h]

theorem sknpEffect_ok (x : Nibble) (s : State) (h : (s.reg x).toNat < 16) :
    sknpEffect x s = .ok (s.skipIf (!s.keyDown ⟨(s.reg x).toNat, h⟩)) := by
  simp only [sknpEffect, keyIndex_ok _ h]

theorem sknpEffect_fault (x : Nibble) (s : State) (h : 16 ≤ (s.reg x).toNat) :
    sknpEffect x s = .error .keyIndexOutOfRange := by
  simp only [sknpEffect, keyIndex_fault _ h]

/-- The key wait moves `pc` back or writes its register, and never faults. -/
theorem ldVxKEffect_cases (x : Nibble) (s : State) :
    (s.lowestKey = none ∧ ldVxKEffect x s = .ok (s.setPc (s.pc - 2))) ∨
    (∃ k, s.lowestKey = some k ∧ ldVxKEffect x s = .ok (s.setReg x (BitVec.ofNat 8 k.val))) := by
  cases hk : s.lowestKey with
  | none => exact .inl ⟨rfl, by simp only [ldVxKEffect, hk]⟩
  | some k => exact .inr ⟨k, rfl, by simp only [ldVxKEffect, hk]⟩

theorem ldVxImemEffect_ok (x : Nibble) (s : State) (h : s.dataAddr + x.toNat ≤ 0xFFF) :
    ldVxImemEffect x s = .ok (s.setRegsFrom0 (s.bytes s.dataAddr (x.toNat + 1))) := by
  simp only [ldVxImemEffect, State.memRead_ok s s.dataAddr (x.toNat + 1) (by omega)]

theorem ldVxImemEffect_fault (x : Nibble) (s : State) (h : 0xFFF < s.dataAddr + x.toNat) :
    ldVxImemEffect x s = .error .memReadOutOfRange := by
  simp only [ldVxImemEffect, State.memRead_fault s s.dataAddr (x.toNat + 1) (by omega) (by omega)]

theorem drwEffect_ok (x y n : Nibble) (s : State)
    (h : n.toNat = 0 ∨ s.dataAddr + n.toNat - 1 ≤ 0xFFF) :
    drwEffect x y n s =
      .ok ((s.setVideo (s.video.toggleAll (s.drawnCells x y (s.bytes s.dataAddr n.toNat)))).setReg vf
        (collisionFlag s.video (s.drawnCells x y (s.bytes s.dataAddr n.toNat)))) := by
  simp only [drwEffect, State.memRead_ok s s.dataAddr n.toNat (by omega)]

theorem drwEffect_fault (x y n : Nibble) (s : State) (h0 : 0 < n.toNat)
    (h : 0xFFF < s.dataAddr + n.toNat - 1) : drwEffect x y n s = .error .memReadOutOfRange := by
  simp only [drwEffect, State.memRead_fault s s.dataAddr n.toNat h0 (by omega)]

@[simp] theorem State.regsUpTo_length (s : State) (x : Nibble) : (s.regsUpTo x).length = x.toNat + 1 := by
  simp [State.regsUpTo]

@[simp] theorem decimalDigits_length (v : Byte) : (decimalDigits v).length = 3 := rfl

theorem ldBVxEffect_ok (x : Nibble) (s : State) (h1 : 0x050 ≤ s.dataAddr) (h2 : s.dataAddr + 2 ≤ 0xFFF) :
    ldBVxEffect x s = .ok { s with mem := s.mem.writeBytes s.dataAddr (decimalDigits (s.reg x)) } :=
  State.memWrite_ok s _ _ h1 (by rw [decimalDigits_length]; omega)

theorem ldBVxEffect_outOfRange (x : Nibble) (s : State) (h : 0xFFF < s.dataAddr + 2) :
    ldBVxEffect x s = .error .memWriteOutOfRange :=
  State.memWrite_outOfRange s _ _ (by rw [decimalDigits_length]; omega)

theorem ldBVxEffect_glyphRom (x : Nibble) (s : State) (h : s.dataAddr ≤ 0x04F) :
    ldBVxEffect x s = .error .glyphRomWrite :=
  State.memWrite_glyphRom s _ _ h (by rw [decimalDigits_length]; omega)

theorem ldImemVxEffect_ok (x : Nibble) (s : State) (h1 : 0x050 ≤ s.dataAddr) (h2 : s.dataAddr + x.toNat ≤ 0xFFF) :
    ldImemVxEffect x s = .ok { s with mem := s.mem.writeBytes s.dataAddr (s.regsUpTo x) } :=
  State.memWrite_ok s _ _ h1 (by rw [State.regsUpTo_length]; omega)

theorem ldImemVxEffect_outOfRange (x : Nibble) (s : State) (h : 0xFFF < s.dataAddr + x.toNat) :
    ldImemVxEffect x s = .error .memWriteOutOfRange :=
  State.memWrite_outOfRange s _ _ (by rw [State.regsUpTo_length]; omega)

theorem ldImemVxEffect_glyphRom (x : Nibble) (s : State) (h : s.dataAddr ≤ 0x04F) :
    ldImemVxEffect x s = .error .glyphRomWrite :=
  State.memWrite_glyphRom s _ _ h (by rw [State.regsUpTo_length]; omega)

/-! ### The same, read from a completed execute step -/

theorem retEffect_inv (s u : State) (h : retEffect s = .ok u) :
    s.sp.val ≠ 0 ∧ u = { s with
      pc := s.stack[s.sp.val - 1]'(by have := s.sp.isLt; omega)
      sp := ⟨s.sp.val - 1, by have := s.sp.isLt; omega⟩ } := by
  by_cases h0 : s.sp.val = 0
  · rw [retEffect_fault s h0] at h; cases h
  · rw [retEffect_ok s h0] at h; cases h; exact ⟨h0, rfl⟩

theorem callEffect_inv (nnn : Addr12) (s u : State) (h : callEffect nnn s = .ok u) :
    ∃ h0 : s.sp.val < 16, u = { s with
      pc := target nnn
      stack := s.stack.set s.sp.val s.pc h0
      sp := ⟨s.sp.val + 1, by omega⟩ } := by
  by_cases h0 : s.sp.val < 16
  · rw [callEffect_ok nnn s h0] at h; cases h; exact ⟨h0, rfl⟩
  · rw [callEffect_fault nnn s (by have := s.sp.isLt; omega)] at h; cases h

theorem skpEffect_inv (x : Nibble) (s u : State) (h : skpEffect x s = .ok u) :
    ∃ h0 : (s.reg x).toNat < 16, u = s.skipIf (s.keyDown ⟨(s.reg x).toNat, h0⟩) := by
  by_cases h0 : (s.reg x).toNat < 16
  · rw [skpEffect_ok x s h0] at h; cases h; exact ⟨h0, rfl⟩
  · rw [skpEffect_fault x s (by omega)] at h; cases h

theorem sknpEffect_inv (x : Nibble) (s u : State) (h : sknpEffect x s = .ok u) :
    ∃ h0 : (s.reg x).toNat < 16, u = s.skipIf (!s.keyDown ⟨(s.reg x).toNat, h0⟩) := by
  by_cases h0 : (s.reg x).toNat < 16
  · rw [sknpEffect_ok x s h0] at h; cases h; exact ⟨h0, rfl⟩
  · rw [sknpEffect_fault x s (by omega)] at h; cases h

theorem ldVxKEffect_inv (x : Nibble) (s u : State) (h : ldVxKEffect x s = .ok u) :
    (s.lowestKey = none ∧ u = s.setPc (s.pc - 2)) ∨
    (∃ k, s.lowestKey = some k ∧ u = s.setReg x (BitVec.ofNat 8 k.val)) := by
  rcases ldVxKEffect_cases x s with ⟨h1, h2⟩ | ⟨k, h1, h2⟩
  · rw [h2] at h; cases h; exact .inl ⟨h1, rfl⟩
  · rw [h2] at h; cases h; exact .inr ⟨k, h1, rfl⟩

theorem ldVxImemEffect_inv (x : Nibble) (s u : State) (h : ldVxImemEffect x s = .ok u) :
    s.dataAddr + x.toNat ≤ 0xFFF ∧ u = s.setRegsFrom0 (s.bytes s.dataAddr (x.toNat + 1)) := by
  by_cases h0 : s.dataAddr + x.toNat ≤ 0xFFF
  · rw [ldVxImemEffect_ok x s h0] at h
    exact ⟨h0, (Except.ok.inj h).symm⟩
  · rw [ldVxImemEffect_fault x s (by omega)] at h; cases h

theorem drwEffect_inv (x y n : Nibble) (s u : State) (h : drwEffect x y n s = .ok u) :
    (n.toNat = 0 ∨ s.dataAddr + n.toNat - 1 ≤ 0xFFF) ∧
    u = (s.setVideo (s.video.toggleAll (s.drawnCells x y (s.bytes s.dataAddr n.toNat)))).setReg vf
      (collisionFlag s.video (s.drawnCells x y (s.bytes s.dataAddr n.toNat))) := by
  by_cases h0 : n.toNat = 0 ∨ s.dataAddr + n.toNat - 1 ≤ 0xFFF
  · rw [drwEffect_ok x y n s h0] at h
    exact ⟨h0, (Except.ok.inj h).symm⟩
  · rw [drwEffect_fault x y n s (by omega) (by omega)] at h; cases h

/-! ### What no execute step writes -/

/-- An execute step writes none of the opcode latch, the fault latch, the inputs and the parameters (R74, R21, R24, R20,
R28). -/
theorem effectOf_frame (i : Instr) (s u : State) (h : effectOf i s = .ok u) :
    u.opcode = s.opcode ∧ u.fault = s.fault ∧ u.keypad = s.keypad ∧ u.keyInput = s.keyInput ∧
    u.params = s.params := by
  cases i <;> simp only [effectOf] at h
  case ret => obtain ⟨_, rfl⟩ := retEffect_inv _ _ h; exact ⟨rfl, rfl, rfl, rfl, rfl⟩
  case call => obtain ⟨_, rfl⟩ := callEffect_inv _ _ _ h; exact ⟨rfl, rfl, rfl, rfl, rfl⟩
  case skp => obtain ⟨_, rfl⟩ := skpEffect_inv _ _ _ h; rw [State.skipIf_eq]; exact ⟨rfl, rfl, rfl, rfl, rfl⟩
  case sknp => obtain ⟨_, rfl⟩ := sknpEffect_inv _ _ _ h; rw [State.skipIf_eq]; exact ⟨rfl, rfl, rfl, rfl, rfl⟩
  case ldVxK => rcases ldVxKEffect_inv _ _ _ h with ⟨_, rfl⟩ | ⟨_, _, rfl⟩ <;> exact ⟨rfl, rfl, rfl, rfl, rfl⟩
  case ldVxImem => obtain ⟨_, rfl⟩ := ldVxImemEffect_inv _ _ _ h; simp
  case drw => obtain ⟨_, rfl⟩ := drwEffect_inv _ _ _ _ _ h; simp
  case ldBVx => obtain ⟨_, _, rfl⟩ := State.memWrite_inv _ _ _ _ h; simp
  case ldImemVx => obtain ⟨_, _, rfl⟩ := State.memWrite_inv _ _ _ _ h; simp
  case seVxKk => cases h; rw [State.skipIf_eq]; exact ⟨rfl, rfl, rfl, rfl, rfl⟩
  case sneVxKk => cases h; rw [State.skipIf_eq]; exact ⟨rfl, rfl, rfl, rfl, rfl⟩
  case seVxVy => cases h; rw [State.skipIf_eq]; exact ⟨rfl, rfl, rfl, rfl, rfl⟩
  case sneVxVy => cases h; rw [State.skipIf_eq]; exact ⟨rfl, rfl, rfl, rfl, rfl⟩
  all_goals cases h; exact ⟨rfl, rfl, rfl, rfl, rfl⟩

end Sys2Proof.Machine
end

