-- ==== Sys2Proof/Laws/PerInstr.lean ====
section
/-!
SUPPORT. A law for every instruction: its word lies under its row of spec/opcode_table.json, that is the row's mask
picks the row's match out of it (spec/30_encoding.md rules R56 and R62). For the catalogued operations the rows are
R56's; for the four no-op constructors they are the table's `fallback` rows.
-/

namespace Sys2Proof

/-- Mask and match of a constructor's row in spec/opcode_table.json. -/
def rowOf : Instr → Word × Word
  | .cls _ => (0xF00F, 0x0000)
  | .ret _ => (0xF00F, 0x000E)
  | .jp _ => (0xF000, 0x1000)
  | .call _ => (0xF000, 0x2000)
  | .seVxKk _ _ => (0xF000, 0x3000)
  | .sneVxKk _ _ => (0xF000, 0x4000)
  | .seVxVy _ _ _ => (0xF000, 0x5000)
  | .ldVxKk _ _ => (0xF000, 0x6000)
  | .addVxKk _ _ => (0xF000, 0x7000)
  | .ldVxVy _ _ => (0xF00F, 0x8000)
  | .or _ _ => (0xF00F, 0x8001)
  | .and _ _ => (0xF00F, 0x8002)
  | .xor _ _ => (0xF00F, 0x8003)
  | .addVxVy _ _ => (0xF00F, 0x8004)
  | .sub _ _ => (0xF00F, 0x8005)
  | .shr _ _ => (0xF00F, 0x8006)
  | .subn _ _ => (0xF00F, 0x8007)
  | .shl _ _ => (0xF00F, 0x800E)
  | .sneVxVy _ _ _ => (0xF000, 0x9000)
  | .ldINnn _ => (0xF000, 0xA000)
  | .jpV0 _ => (0xF000, 0xB000)
  | .rnd _ _ => (0xF000, 0xC000)
  | .drw _ _ _ => (0xF000, 0xD000)
  | .skp _ _ => (0xF00F, 0xE00E)
  | .sknp _ _ => (0xF00F, 0xE001)
  | .ldVxDt _ => (0xF0FF, 0xF007)
  | .ldVxK _ => (0xF0FF, 0xF00A)
  | .ldDtVx _ => (0xF0FF, 0xF015)
  | .ldStVx _ => (0xF0FF, 0xF018)
  | .addIVx _ => (0xF0FF, 0xF01E)
  | .ldFVx _ => (0xF0FF, 0xF029)
  | .ldBVx _ => (0xF0FF, 0xF033)
  | .ldImemVx _ => (0xF0FF, 0xF055)
  | .ldVxImem _ => (0xF0FF, 0xF065)
  | .nopS4 _ _ => (0xF000, 0x0000)
  | .nopXys _ _ _ => (0xF000, 0x8000)
  | .nopXs4 _ _ _ => (0xF000, 0xE000)
  | .nopXs8 _ _ => (0xF000, 0xF000)

/-- The word of `i` lies under the row of `i`. -/
def Laws.UnderRow.Statement (i : Instr) : Prop := encode i &&& (rowOf i).1 = (rowOf i).2

theorem Laws.UnderRow.cls (ign : Byte) : Laws.UnderRow.Statement (.cls ign) :=
  (mask_family_n _ 0x0000#16 (by decide)).2 ⟨(family_mid _ _ _), fieldN_mid _ _ _⟩

theorem Laws.UnderRow.ret (ign : Byte) : Laws.UnderRow.Statement (.ret ign) :=
  (mask_family_n _ 0x000E#16 (by decide)).2 ⟨(family_mid _ _ _), fieldN_mid _ _ _⟩

theorem Laws.UnderRow.jp (nnn : Addr12) : Laws.UnderRow.Statement (.jp nnn) :=
  (mask_family _ 0x1000#16 (by decide)).2 (family_nnn _ _)

theorem Laws.UnderRow.call (nnn : Addr12) : Laws.UnderRow.Statement (.call nnn) :=
  (mask_family _ 0x2000#16 (by decide)).2 (family_nnn _ _)

theorem Laws.UnderRow.seVxKk (x : Nibble) (kk : Byte) : Laws.UnderRow.Statement (.seVxKk x kk) :=
  (mask_family _ 0x3000#16 (by decide)).2 (family_xkk _ _ _)

theorem Laws.UnderRow.sneVxKk (x : Nibble) (kk : Byte) : Laws.UnderRow.Statement (.sneVxKk x kk) :=
  (mask_family _ 0x4000#16 (by decide)).2 (family_xkk _ _ _)

theorem Laws.UnderRow.seVxVy (x : Nibble) (y : Nibble) (ign : Nibble) : Laws.UnderRow.Statement (.seVxVy x y ign) :=
  (mask_family _ 0x5000#16 (by decide)).2 (family_xyn _ _ _ _)

theorem Laws.UnderRow.ldVxKk (x : Nibble) (kk : Byte) : Laws.UnderRow.Statement (.ldVxKk x kk) :=
  (mask_family _ 0x6000#16 (by decide)).2 (family_xkk _ _ _)

theorem Laws.UnderRow.addVxKk (x : Nibble) (kk : Byte) : Laws.UnderRow.Statement (.addVxKk x kk) :=
  (mask_family _ 0x7000#16 (by decide)).2 (family_xkk _ _ _)

theorem Laws.UnderRow.ldVxVy (x : Nibble) (y : Nibble) : Laws.UnderRow.Statement (.ldVxVy x y) :=
  (mask_family_n _ 0x8000#16 (by decide)).2 ⟨(family_xyn _ _ _ _), fieldN_xyn _ _ _ _⟩

theorem Laws.UnderRow.or (x : Nibble) (y : Nibble) : Laws.UnderRow.Statement (.or x y) :=
  (mask_family_n _ 0x8001#16 (by decide)).2 ⟨(family_xyn _ _ _ _), fieldN_xyn _ _ _ _⟩

theorem Laws.UnderRow.and (x : Nibble) (y : Nibble) : Laws.UnderRow.Statement (.and x y) :=
  (mask_family_n _ 0x8002#16 (by decide)).2 ⟨(family_xyn _ _ _ _), fieldN_xyn _ _ _ _⟩

theorem Laws.UnderRow.xor (x : Nibble) (y : Nibble) : Laws.UnderRow.Statement (.xor x y) :=
  (mask_family_n _ 0x8003#16 (by decide)).2 ⟨(family_xyn _ _ _ _), fieldN_xyn _ _ _ _⟩

theorem Laws.UnderRow.addVxVy (x : Nibble) (y : Nibble) : Laws.UnderRow.Statement (.addVxVy x y) :=
  (mask_family_n _ 0x8004#16 (by decide)).2 ⟨(family_xyn _ _ _ _), fieldN_xyn _ _ _ _⟩

theorem Laws.UnderRow.sub (x : Nibble) (y : Nibble) : Laws.UnderRow.Statement (.sub x y) :=
  (mask_family_n _ 0x8005#16 (by decide)).2 ⟨(family_xyn _ _ _ _), fieldN_xyn _ _ _ _⟩

theorem Laws.UnderRow.shr (x : Nibble) (y : Nibble) : Laws.UnderRow.Statement (.shr x y) :=
  (mask_family_n _ 0x8006#16 (by decide)).2 ⟨(family_xyn _ _ _ _), fieldN_xyn _ _ _ _⟩

theorem Laws.UnderRow.subn (x : Nibble) (y : Nibble) : Laws.UnderRow.Statement (.subn x y) :=
  (mask_family_n _ 0x8007#16 (by decide)).2 ⟨(family_xyn _ _ _ _), fieldN_xyn _ _ _ _⟩

theorem Laws.UnderRow.shl (x : Nibble) (y : Nibble) : Laws.UnderRow.Statement (.shl x y) :=
  (mask_family_n _ 0x800E#16 (by decide)).2 ⟨(family_xyn _ _ _ _), fieldN_xyn _ _ _ _⟩

theorem Laws.UnderRow.sneVxVy (x : Nibble) (y : Nibble) (ign : Nibble) : Laws.UnderRow.Statement (.sneVxVy x y ign) :=
  (mask_family _ 0x9000#16 (by decide)).2 (family_xyn _ _ _ _)

theorem Laws.UnderRow.ldINnn (nnn : Addr12) : Laws.UnderRow.Statement (.ldINnn nnn) :=
  (mask_family _ 0xA000#16 (by decide)).2 (family_nnn _ _)

theorem Laws.UnderRow.jpV0 (nnn : Addr12) : Laws.UnderRow.Statement (.jpV0 nnn) :=
  (mask_family _ 0xB000#16 (by decide)).2 (family_nnn _ _)

theorem Laws.UnderRow.rnd (x : Nibble) (kk : Byte) : Laws.UnderRow.Statement (.rnd x kk) :=
  (mask_family _ 0xC000#16 (by decide)).2 (family_xkk _ _ _)

theorem Laws.UnderRow.drw (x : Nibble) (y : Nibble) (n : Nibble) : Laws.UnderRow.Statement (.drw x y n) :=
  (mask_family _ 0xD000#16 (by decide)).2 (family_xyn _ _ _ _)

theorem Laws.UnderRow.skp (x : Nibble) (ign : Nibble) : Laws.UnderRow.Statement (.skp x ign) :=
  (mask_family_n _ 0xE00E#16 (by decide)).2 ⟨(family_xyn _ _ _ _), fieldN_xyn _ _ _ _⟩

theorem Laws.UnderRow.sknp (x : Nibble) (ign : Nibble) : Laws.UnderRow.Statement (.sknp x ign) :=
  (mask_family_n _ 0xE001#16 (by decide)).2 ⟨(family_xyn _ _ _ _), fieldN_xyn _ _ _ _⟩

theorem Laws.UnderRow.ldVxDt (x : Nibble) : Laws.UnderRow.Statement (.ldVxDt x) :=
  (mask_family_kk _ 0xF007#16 (by decide)).2 ⟨(family_xkk _ _ _), fieldKk_xkk _ _ _⟩

theorem Laws.UnderRow.ldVxK (x : Nibble) : Laws.UnderRow.Statement (.ldVxK x) :=
  (mask_family_kk _ 0xF00A#16 (by decide)).2 ⟨(family_xkk _ _ _), fieldKk_xkk _ _ _⟩

theorem Laws.UnderRow.ldDtVx (x : Nibble) : Laws.UnderRow.Statement (.ldDtVx x) :=
  (mask_family_kk _ 0xF015#16 (by decide)).2 ⟨(family_xkk _ _ _), fieldKk_xkk _ _ _⟩

theorem Laws.UnderRow.ldStVx (x : Nibble) : Laws.UnderRow.Statement (.ldStVx x) :=
  (mask_family_kk _ 0xF018#16 (by decide)).2 ⟨(family_xkk _ _ _), fieldKk_xkk _ _ _⟩

theorem Laws.UnderRow.addIVx (x : Nibble) : Laws.UnderRow.Statement (.addIVx x) :=
  (mask_family_kk _ 0xF01E#16 (by decide)).2 ⟨(family_xkk _ _ _), fieldKk_xkk _ _ _⟩

theorem Laws.UnderRow.ldFVx (x : Nibble) : Laws.UnderRow.Statement (.ldFVx x) :=
  (mask_family_kk _ 0xF029#16 (by decide)).2 ⟨(family_xkk _ _ _), fieldKk_xkk _ _ _⟩

theorem Laws.UnderRow.ldBVx (x : Nibble) : Laws.UnderRow.Statement (.ldBVx x) :=
  (mask_family_kk _ 0xF033#16 (by decide)).2 ⟨(family_xkk _ _ _), fieldKk_xkk _ _ _⟩

theorem Laws.UnderRow.ldImemVx (x : Nibble) : Laws.UnderRow.Statement (.ldImemVx x) :=
  (mask_family_kk _ 0xF055#16 (by decide)).2 ⟨(family_xkk _ _ _), fieldKk_xkk _ _ _⟩

theorem Laws.UnderRow.ldVxImem (x : Nibble) : Laws.UnderRow.Statement (.ldVxImem x) :=
  (mask_family_kk _ 0xF065#16 (by decide)).2 ⟨(family_xkk _ _ _), fieldKk_xkk _ _ _⟩

theorem Laws.UnderRow.nopS4 (ign : Byte) (sel : Nibble) : Laws.UnderRow.Statement (.nopS4 ign sel) :=
  (mask_family _ 0x0000#16 (by decide)).2 (family_mid _ _ _)

theorem Laws.UnderRow.nopXys (x : Nibble) (y : Nibble) (sel : Nibble) : Laws.UnderRow.Statement (.nopXys x y sel) :=
  (mask_family _ 0x8000#16 (by decide)).2 (family_xyn _ _ _ _)

theorem Laws.UnderRow.nopXs4 (x : Nibble) (ign : Nibble) (sel : Nibble) : Laws.UnderRow.Statement (.nopXs4 x ign sel) :=
  (mask_family _ 0xE000#16 (by decide)).2 (family_xyn _ _ _ _)

theorem Laws.UnderRow.nopXs8 (x : Nibble) (sel : Byte) : Laws.UnderRow.Statement (.nopXs8 x sel) :=
  (mask_family _ 0xF000#16 (by decide)).2 (family_xkk _ _ _)

end Sys2Proof
end

