-- ==== Sys2Proof/Tests/Slice0.lean ====
section
/-!
SUPPORT. The model's own tests. Expected values are the spec's: the decode vectors, the one-cycle vectors and the load
vectors of spec/95_test_vectors.md (their ids stand in the comments), and words written out from the encodings of
spec/30_encoding.md. After them, for every obligation with hypotheses, a witness that meets them.
-/

namespace Sys2Proof.Tests

open Sys2Proof.Machine Sys2Proof.Claims

/-! ### Helpers -/

/-- The outcome is a next state with the property `p`. -/
def got (o : Host.Outcome State Fault Refusal) (p : State → Bool) : Bool :=
  match o with
  | .next t => p t
  | _ => false

/-- One step on the word `w`, placed where the next fetch reads it. -/
def run (w : Nat) (s : State) (p : State → Bool) : Bool := got (step (s.withFetchWord 16 w)) p

/-- The reset state. -/
def s0 : State := State.reset

/-- The reset state with two registers set. -/
def regs2 (x : Nibble) (a : Byte) (y : Nibble) (b : Byte) : State := (s0.setReg y b).setReg x a

/-- The step latched this fault for the word `w` at 0x200 and advanced nothing. -/
def faulted (c : Fault) (w : Word) (t : State) : Bool :=
  t.fault = some ⟨c, 0x200, some w⟩ && t.pc = 0x200 && t.opcode = 0

/-- The lit cells are exactly these, as (column, row). -/
def litCells (t : State) : List (Nat × Nat) :=
  (List.finRange 32).flatMap fun py => ((List.finRange 64).filter fun px => t.cell px py).map fun px => (px.val, py.val)

/-- A framebuffer with these cells lit. -/
def lit (cells : List (Fin 64 × Fin 32)) : Video := Video.dark.toggleAll cells

/-- The reset state with `I = 0x300` and these bytes there. -/
def at300 (bytes : List Byte) : State := { s0 with index := 0x300, mem := s0.mem.writeBytes 0x300 bytes }

/-! ### Well-formedness: every check refuses something -/

theorem test_wf_nop0 : (Instr.nopS4 0x12 0x0).wf = false ∧ (Instr.nopS4 0x12 0xE).wf = false ∧
    (Instr.nopS4 0x12 0x1).wf = true := by decide

theorem test_wf_nop8 : (Instr.nopXys 0x1 0x2 0x7).wf = false ∧ (Instr.nopXys 0x1 0x2 0xE).wf = false ∧
    (Instr.nopXys 0x1 0x2 0xF).wf = true := by decide

theorem test_wf_nopE : (Instr.nopXs4 0x1 0x2 0x1).wf = false ∧ (Instr.nopXs4 0x1 0x2 0xE).wf = false ∧
    (Instr.nopXs4 0x1 0x2 0x0).wf = true := by decide

theorem test_wf_nopF : (Instr.nopXs8 0x1 0x0A).wf = false ∧ (Instr.nopXs8 0x1 0x65).wf = false ∧
    (Instr.nopXs8 0x1 0x75).wf = true := by decide

/-! ### Decoding: one word written out per constructor, bit 15 first (R54, R56, and vectors 2.7) -/

theorem test_decode_family0 : decodeWord 0b0000_0000_1110_0000 = .cls 0x0E ∧ decodeWord 0b0000_0000_0000_0000 = .cls 0 ∧
    decodeWord 0b0000_1010_1011_1110 = .ret 0xAB ∧ decodeWord 0b0000_1010_1011_1100 = .nopS4 0xAB 0xC := by decide

theorem test_decode_jumps : decodeWord 0b0001_0010_0011_0100 = .jp 0x234 ∧
    decodeWord 0b0010_1010_1011_1100 = .call 0xABC ∧ decodeWord 0b1011_0011_0000_0001 = .jpV0 0x301 := by decide

theorem test_decode_skips : decodeWord 0b0011_1010_0000_0101 = .seVxKk 0xA 0x05 ∧
    decodeWord 0b0100_1010_0000_0101 = .sneVxKk 0xA 0x05 ∧ decodeWord 0b0101_1010_1011_0111 = .seVxVy 0xA 0xB 0x7 ∧
    decodeWord 0b1001_1010_1011_0001 = .sneVxVy 0xA 0xB 0x1 := by decide

theorem test_decode_immediates : decodeWord 0b0110_1010_0111_1111 = .ldVxKk 0xA 0x7F ∧
    decodeWord 0b0111_0001_0000_0101 = .addVxKk 0x1 0x05 ∧ decodeWord 0b1010_0001_0010_0011 = .ldINnn 0x123 ∧
    decodeWord 0b1100_0001_0000_1111 = .rnd 0x1 0x0F ∧ decodeWord 0b1101_0001_0010_0101 = .drw 0x1 0x2 0x5 := by decide

theorem test_decode_family8 : decodeWord 0b1000_0001_0010_0000 = .ldVxVy 1 2 ∧
    decodeWord 0b1000_0001_0010_0001 = .or 1 2 ∧ decodeWord 0b1000_0001_0010_0010 = .and 1 2 ∧
    decodeWord 0b1000_0001_0010_0011 = .xor 1 2 ∧ decodeWord 0b1000_0001_0010_0100 = .addVxVy 1 2 ∧
    decodeWord 0b1000_0001_0010_0101 = .sub 1 2 ∧ decodeWord 0b1000_0001_0010_0110 = .shr 1 2 ∧
    decodeWord 0b1000_1010_1011_0111 = .subn 0xA 0xB ∧ decodeWord 0b1000_1010_1011_1110 = .shl 0xA 0xB ∧
    decodeWord 0b1000_1010_1011_1101 = .nopXys 0xA 0xB 0xD := by decide

theorem test_decode_familyE : decodeWord 0b1110_1010_1111_1110 = .skp 0xA 0xF ∧
    decodeWord 0b1110_1010_0000_0001 = .sknp 0xA 0x0 ∧ decodeWord 0b1110_1010_1001_1111 = .nopXs4 0xA 0x9 0xF := by decide

theorem test_decode_familyF : decodeWord 0b1111_1010_0000_0111 = .ldVxDt 0xA ∧
    decodeWord 0b1111_1010_0000_1010 = .ldVxK 0xA ∧ decodeWord 0b1111_1010_0001_0101 = .ldDtVx 0xA ∧
    decodeWord 0b1111_1010_0001_1000 = .ldStVx 0xA ∧ decodeWord 0b1111_1010_0001_1110 = .addIVx 0xA ∧
    decodeWord 0b1111_1010_0010_1001 = .ldFVx 0xA ∧ decodeWord 0b1111_1010_0011_0011 = .ldBVx 0xA ∧
    decodeWord 0b1111_1010_0101_0101 = .ldImemVx 0xA ∧ decodeWord 0b1111_1010_0110_0101 = .ldVxImem 0xA ∧
    decodeWord 0b1111_1010_0001_0111 = .nopXs8 0xA 0x17 := by decide

/-- The byte at the lower address is bits 15 to 8 (R50); one byte is no instruction. -/
theorem test_decode_bytes : decode [0x3A, 0x05, 0x77] = .ok (.seVxKk 0xA 0x05, [0x77]) ∧
    decode [0x3A] = .error .truncated := by decide

theorem test_decodeTableWord : decodeTableWord 16 0x3A05 = some (.seVxKk 0xA 0x05) := by decide

/-! ### One step: control transfer (vectors T) and fetch -/

-- T2
theorem test_ret_alias_pops_top : run 0x012E { s0 with sp := 2, stack := #v[0x234, 0x400, 0, 0, 0, 0, 0, 0, 0, 0, 0, 0, 0, 0, 0, 0] }
    (fun t => t.pc = 0x400 && t.sp = 1 && t.stack[1] = 0x400) = true := by decide

-- T3
theorem test_ret_underflow : run 0x00EE s0 (faulted .stackUnderflow 0x00EE) = true := by decide

-- T4
theorem test_jp : run 0x1ABC s0 (fun t => t.pc = 0xABC && t.opcode = 0x1ABC) = true := by decide

-- T9
theorem test_call_at_top : run 0x2ABC { s0 with pc := 0xFFE, sp := 3 }
    (fun t => t.pc = 0xABC && t.sp = 4 && t.stack[3] = 0x1000) = true := by decide

-- T8
theorem test_call_overflow : run 0x2300 { s0 with sp := 16 } (faulted .stackOverflow 0x2300) = true := by decide

-- S7
theorem test_se_kk : run 0x3A05 (s0.setReg 0xA 0x05) (fun t => t.pc = 0x204) = true := by decide

-- T24
theorem test_se_kk_off_the_end : run 0x3000 { s0 with pc := 0xFFE } (fun t => t.pc = 0x1002 && t.fault = none) = true := by
  decide

-- T12, T13
theorem test_sne_kk : run 0x4A05 (s0.setReg 0xA 0x05) (fun t => t.pc = 0x202) = true ∧
    run 0x4A05 (s0.setReg 0xA 0x06) (fun t => t.pc = 0x204) = true := by decide

-- T16, T15
theorem test_se_xy : run 0x5125 (regs2 1 7 2 7) (fun t => t.pc = 0x204) = true ∧
    run 0x5120 (regs2 1 7 2 8) (fun t => t.pc = 0x202) = true := by decide

-- T20, T21
theorem test_sne_xy : run 0x912F (regs2 1 7 2 8) (fun t => t.pc = 0x204) = true ∧
    run 0x9330 (s0.setReg 3 0x99) (fun t => t.pc = 0x202) = true := by decide

-- T23
theorem test_jpV0 : run 0xBFFF (s0.setReg 0 0xFF) (fun t => t.pc = 0x10FE && t.fault = none) = true := by decide

-- T25
theorem test_fetch_fault : got (step { s0 with pc := 0xFFF })
    (fun t => t = { s0 with pc := 0xFFF, fault := some ⟨.fetchOutOfRange, 0xFFF, none⟩ }) = true := by decide

-- T27
theorem test_fetch_odd : run 0x612A { s0 with pc := 0x201 } (fun t => t.pc = 0x203 && t.reg 1 = 0x2A) = true := by decide

/-! ### One step: arithmetic (vectors A) -/

-- A2
theorem test_ld_kk : run 0x6F05 s0 (fun t => t.reg 0xF = 0x05 && t.pc = 0x202) = true := by decide

-- A3
theorem test_add_kk : run 0x7105 (regs2 1 0xFE 0xF 1) (fun t => t.reg 1 = 0x03 && t.reg 0xF = 1) = true := by decide

-- A5
theorem test_ld_xy : run 0x8120 (regs2 1 0x11 2 0x33) (fun t => t.reg 1 = 0x33 && t.reg 2 = 0x33) = true := by decide

-- A6
theorem test_or : run 0x8121 ((regs2 1 0xF0 2 0x0F).setReg 0xF 1) (fun t => t.reg 1 = 0xFF && t.reg 0xF = 1) = true := by
  decide

-- A7
theorem test_and : run 0x8122 (regs2 1 0xF0 2 0x3C) (fun t => t.reg 1 = 0x30) = true := by decide

-- A8
theorem test_xor : run 0x8123 (regs2 1 0xF0 2 0x3C) (fun t => t.reg 1 = 0xCC) = true := by decide

-- A10, A11
theorem test_add_xy : run 0x8124 (regs2 1 0xFF 2 0x01) (fun t => t.reg 1 = 0 && t.reg 0xF = 1) = true ∧
    run 0x8124 ((regs2 1 0x80 2 0x7F).setReg 0xF 1) (fun t => t.reg 1 = 0xFF && t.reg 0xF = 0) = true := by decide

-- A14
theorem test_add_flag_wins : run 0x8F14 (regs2 1 0x02 0xF 0x01) (fun t => t.reg 0xF = 0) = true := by decide

-- A17, A18
theorem test_sub : run 0x8125 ((regs2 1 3 2 5).setReg 0xF 1) (fun t => t.reg 1 = 0xFE && t.reg 0xF = 0) = true ∧
    run 0x8125 ((regs2 1 5 2 5).setReg 0xF 1) (fun t => t.reg 1 = 0 && t.reg 0xF = 0) = true := by decide

-- A21
theorem test_sub_reads_old_vf : run 0x81F5 (regs2 1 3 0xF 9) (fun t => t.reg 1 = 0xFA && t.reg 0xF = 0) = true := by decide

-- A22
theorem test_shr : run 0x8126 (regs2 1 5 2 0xFF) (fun t => t.reg 1 = 2 && t.reg 0xF = 1 && t.reg 2 = 0xFF) = true := by decide

-- A25
theorem test_shr_value_wins : run 0x8F06 (s0.setReg 0xF 0x05) (fun t => t.reg 0xF = 0x02) = true := by decide

-- A26, A28
theorem test_subn : run 0x8127 (regs2 1 3 2 5) (fun t => t.reg 1 = 2 && t.reg 0xF = 1) = true ∧
    run 0x8127 ((regs2 1 5 2 5).setReg 0xF 1) (fun t => t.reg 1 = 0 && t.reg 0xF = 0) = true := by decide

-- A29
theorem test_subn_flag_wins : run 0x8F17 (regs2 1 9 0xF 3) (fun t => t.reg 0xF = 1) = true := by decide

-- A30
theorem test_shl : run 0x812E (regs2 1 0x81 2 0xFF) (fun t => t.reg 1 = 2 && t.reg 0xF = 1) = true := by decide

-- A32
theorem test_shl_value_wins : run 0x8F0E (s0.setReg 0xF 0x81) (fun t => t.reg 0xF = 0x02) = true := by decide

-- A35, A37: the mask, on the drawn byte 0xA7
theorem test_rnd_mask : maskedDraw 0xA7 0x0F = 0x07 ∧ maskedDraw 0xA7 0xFF = 0xA7 := by decide

-- A36: a mask of 0 gives 0 whatever is drawn
theorem test_rnd_zero_mask : ∃ t, exec (.rnd 1 0x00) (s0.setReg 1 0x55) = .next t ∧ t.reg 1 = 0 ∧ t.rndDraws = 1 :=
  ⟨_, rfl, BitVec.and_zero, rfl⟩

/-! ### One step: index register and memory (vectors M) -/

-- M1
theorem test_ld_i : run 0xA123 { s0 with index := 0xFFFF } (fun t => t.index = 0x123) = true := by decide

-- M2, M3
theorem test_add_i : run 0xF11E { s0.setReg 1 5 with index := 0xFFE } (fun t => t.index = 0x1003 && t.reg 0xF = 0) = true ∧
    run 0xF11E { s0.setReg 1 2 with index := 0xFFFF } (fun t => t.index = 1) = true := by decide

-- M5, M7
theorem test_ld_f : run 0xF229 (s0.setReg 2 0x0A) (fun t => t.index = 0x32) = true ∧
    run 0xF229 (s0.setReg 2 0xFF) (fun t => t.index = 0x4FB) = true := by decide

-- M9
theorem test_ld_b : run 0xF333 ((at300 [9, 9, 9]).setReg 3 0x07)
    (fun t => t.bytes 0x300 3 = [0, 0, 7] && t.index = 0x300) = true := by decide

-- M11, M12
theorem test_ld_b_faults : run 0xF333 { s0.setReg 3 0xFF with index := 0xFFE } (faulted .memWriteOutOfRange 0xF333) = true ∧
    run 0xF333 { s0.setReg 3 0xFF with index := 0x04F } (faulted .glyphRomWrite 0xF333) = true := by decide

-- M14
theorem test_ld_imem : run 0xF255 (((at300 []).setReg 0 1 |>.setReg 1 2).setReg 2 3 |>.setReg 3 4)
    (fun t => t.bytes 0x300 4 = [1, 2, 3, 0] && t.index = 0x300) = true := by decide

-- M16, M17
theorem test_ld_imem_faults : run 0xF155 { s0.setReg 0 0xAA with index := 0xFFF } (faulted .memWriteOutOfRange 0xF155) = true ∧
    run 0xF355 { s0.setReg 0 1 with index := 0x04E } (faulted .glyphRomWrite 0xF355) = true := by decide

-- M19, M21
theorem test_ld_vx_imem : run 0xF265 ((at300 [0x11, 0x22, 0x33, 0x44]).setReg 3 0x99)
      (fun t => t.reg 0 = 0x11 && t.reg 1 = 0x22 && t.reg 2 = 0x33 && t.reg 3 = 0x99) = true ∧
    run 0xF465 s0 (fun t => t.reg 0 = 0xF0 && t.reg 1 = 0x90 && t.reg 4 = 0xF0) = true := by decide

-- M20
theorem test_ld_vx_imem_fault : run 0xF265 { regs2 0 1 2 3 with index := 0xFFE } (faulted .memReadOutOfRange 0xF265) = true := by
  decide

/-! ### One step: display (vectors G) -/

-- G1
theorem test_cls : run 0x00E0 { s0.setReg 0xF 1 with video := lit [(0, 0), (63, 31), (10, 5)] }
    (fun t => litCells t = [] && t.reg 0xF = 1) = true := by decide

-- G6
theorem test_drw_wraps : run 0xD011 (((at300 [0xC0]).setReg 0 0x3F).setReg 1 0x04)
    (fun t => litCells t = [(0, 4), (63, 4)] && t.reg 0xF = 0) = true := by decide

-- G13
theorem test_drw_collides : run 0xD011 { at300 [0xC0] with video := lit [(1, 0)] }
    (fun t => litCells t = [(0, 0)] && t.reg 0xF = 1) = true := by decide

/-! ### One step: keypad, timers, no-op (vectors K, D) -/

-- K3, K4
theorem test_skp : run 0xE20E { s0 with keypad := 0x0001 } (fun t => t.pc = 0x204) = true ∧
    run 0xE29E { s0.setReg 2 0x10 with keypad := 0x0001 } (faulted .keyIndexOutOfRange 0xE29E) = true := by decide

-- K2
theorem test_skp_not_pressed : run 0xE29E { s0.setReg 2 7 with keypad := 0x0140 } (fun t => t.pc = 0x202) = true := by decide

-- K5, K6
theorem test_sknp : run 0xE2A1 (s0.setReg 2 7) (fun t => t.pc = 0x204) = true ∧
    run 0xE2A1 { s0.setReg 2 7 with keypad := 0x0080 } (fun t => t.pc = 0x202) = true := by decide

-- K7
theorem test_sknp_fault : run 0xE2A1 (s0.setReg 2 0xFF) (faulted .keyIndexOutOfRange 0xE2A1) = true := by decide

-- K9: keys 9, 5 and C down
theorem test_ld_k : run 0xF50A { s0.setReg 5 0x99 with keypad := 0x1220 } (fun t => t.reg 5 = 5 && t.pc = 0x202) = true := by
  decide

-- K11
theorem test_ld_k_waits : run 0xF50A { s0.setReg 5 0x99 with dt := 3, st := 1 }
    (fun t => t.reg 5 = 0x99 && t.pc = 0x200 && t.dt = 2 && t.st = 0 && t.opcode = 0xF50A) = true := by decide

/-- S8, second half: the host presses key 3 before the cycle. -/
theorem test_key_input : run 0xF00A { s0 with keyInput := [0x0008] } (fun t => t.reg 0 = 3 && t.keyInput = []) = true := by
  decide

-- D1
theorem test_ld_vx_dt : run 0xF207 { s0 with dt := 6 } (fun t => t.reg 2 = 6 && t.dt = 5) = true := by decide

-- D3, D5
theorem test_ld_dt : run 0xF115 (s0.setReg 1 7) (fun t => t.dt = 6) = true ∧
    run 0xF115 { s0 with dt := 9 } (fun t => t.dt = 0) = true := by decide

-- D7
theorem test_ld_st : run 0xF118 { s0.setReg 1 0xFF with dt := 1 } (fun t => t.st = 254 && t.dt = 0) = true := by decide

-- D10
theorem test_nop0 : run 0x0001 { s0 with sp := 1, video := lit [(0, 0)] }
    (fun t => t.pc = 0x202 && t.sp = 1 && litCells t = [(0, 0)]) = true := by decide

-- A33
theorem test_nop8 : run 0x8128 ((regs2 1 5 2 3).setReg 0xF 1)
    (fun t => t.pc = 0x202 && t.reg 1 = 5 && t.reg 2 = 3 && t.reg 0xF = 1) = true := by decide

-- D11
theorem test_nopE : run 0xE000 (s0.setReg 0 0xFF) (fun t => t.pc = 0x202 && t.fault = none) = true := by decide

-- D8
theorem test_nopF : run 0xF000 { s0 with dt := 1, st := 255 } (fun t => t.pc = 0x202 && t.dt = 0 && t.st = 254) = true := by
  decide

/-! ### Reset and load (vectors L) -/

-- L1, L4
theorem test_load_rejects : s0.load [] = .error .emptyImage ∧ s0.load (List.replicate 3585 0xFF) = .error .imageTooLarge := by
  refine ⟨rfl, ?_⟩
  have h : (List.replicate 3585 (0xFF : Byte)).length = 3585 := List.length_replicate
  unfold State.load
  rw [if_neg (by omega), if_pos (by omega)]

-- L5
theorem test_load_keeps_tail : ((applyMoves [.load [0x11, 0x22, 0x33, 0x44], .load [0xAA, 0xBB]] s0).bytes 0x200 4) =
    [0xAA, 0xBB, 0x33, 0x44] := by decide

/-- With nothing placed, reset runs 0x0000, a clear, from 0x200 (R153). -/
theorem test_reset_runs_cls : got (step s0) (fun t => t = { s0 with pc := 0x202 }) = true := by decide

/-! ### Witnesses: for every obligation with hypotheses, inputs that meet them, at the boundaries of each clause -/

/-- `DecodeOfEncode`. -/
theorem witness_wellFormed : (Instr.nopXs8 0xF 0xFF).WellFormed ∧ (Instr.drw 0xF 0xF 0xF).WellFormed := by decide

/-- `OpcodeMapSelects`, and `Selects` of every statement that names a mask and a match: each row's own match meets its
mask, each row has a partner, and a no-op word meets none. -/
theorem witness_masks : (∀ row ∈ opcodeMap, row.pattern &&& row.mask = row.pattern ∧ ∃ row' ∈ opcodeMap, row ≠ row') ∧
    ∀ row ∈ opcodeMap, (0x8008 : Word) &&& row.mask ≠ row.pattern := by decide

/-- `NopWords`: a word under each of the four disjuncts. -/
theorem witness_nopWords : [0x0001, 0x800F, 0xE000, 0xFFFF].map (fun w : Word => (decodeWord w).op) =
    [.nop, .nop, .nop, .nop] := by decide

/-- The last instruction of memory, a skip that leaves it; one key write to come. -/
def lastSkip : State := { s0 with pc := 0xFFE, mem := s0.mem.writeBytes 0xFFE [0x30, 0x00], keyInput := [0x0002] }

/-- `StepRunsDecodedInstruction`. -/
theorem witness_stepRuns : lastSkip.fault = none ∧ lastSkip.pc.toNat ≤ 0xFFE ∧
    decode (lastSkip.bytes lastSkip.pc.toNat 2) = .ok (.seVxKk 0 0, []) := by decide

/-- `FetchReadsBigEndianWord`: the last `pc` that fetches and the first that does not. -/
theorem witness_fetch : (lastSkip.pc.toNat ≤ 0xFFE ∧ lastSkip.fault = none ∧
      ∃ t, cycle lastSkip = .next t ∧ t.fault = none) ∧
    (({ s0 with pc := 0xFFF } : State).fault = none ∧ 0xFFE < ({ s0 with pc := 0xFFF } : State).pc.toNat) :=
  ⟨⟨by decide, rfl, _, rfl, rfl⟩, rfl, by decide⟩

/-- A halted core, a key write to come. -/
def haltedState : State := { s0 with fault := some ⟨.stackUnderflow, 0x200, some 0x00EE⟩, keyInput := [0x0001] }

/-- `HaltedCoreUnchanged`. -/
theorem witness_halted : haltedState.fault ≠ none ∧ Move.advance ≠ .reset ∧ Move.load [0x12] ≠ .reset ∧
    Move.keys 0xFFFF ≠ .reset := by decide

/-- `FaultCommitsNothing`: a fault of the fetch and one of an operation. -/
theorem witness_faultCommits : (∃ t r, cycle { s0 with pc := 0xFFF } = .next t ∧ t.fault = some r ∧ r.opcode = none) ∧
    (∃ t r, cycle (s0.placeWord 0x00EE) = .next t ∧ t.fault = some r ∧ r.opcode = some 0x00EE) ∧
    ({ s0 with pc := 0xFFF } : State).fault = none ∧ (s0.placeWord 0x00EE).fault = none :=
  ⟨⟨_, _, rfl, rfl, rfl⟩, ⟨_, _, rfl, rfl, rfl⟩, rfl, rfl⟩

/-- `FaultsExactlyWhenTabled`: every row of the table, on either side of its condition. -/
theorem witness_faultTable :
    [faultOf (.call 0) { s0 with sp := 16 }, faultOf (.call 0) { s0 with sp := 15 }] = [some .stackOverflow, none] ∧
    [faultOf (.ret 0) s0, faultOf (.ret 0) { s0 with sp := 1 }] = [some .stackUnderflow, none] ∧
    [faultOf (.drw 0 0 2) { s0 with index := 0xFFF }, faultOf (.drw 0 0 1) { s0 with index := 0xFFF },
      faultOf (.drw 0 0 0) { s0 with index := 0xFFFF }] = [some .memReadOutOfRange, none, none] ∧
    [faultOf (.ldVxImem 1) { s0 with index := 0xFFF }, faultOf (.ldVxImem 0) { s0 with index := 0xFFF }] =
      [some .memReadOutOfRange, none] ∧
    [faultOf (.ldBVx 0) { s0 with index := 0xFFE }, faultOf (.ldBVx 0) { s0 with index := 0xFFD },
      faultOf (.ldBVx 0) { s0 with index := 0x04F }, faultOf (.ldBVx 0) { s0 with index := 0x050 }] =
      [some .memWriteOutOfRange, none, some .glyphRomWrite, none] ∧
    [faultOf (.ldImemVx 1) { s0 with index := 0xFFF }, faultOf (.ldImemVx 0) { s0 with index := 0xFFF },
      faultOf (.ldImemVx 0) { s0 with index := 0x04F }, faultOf (.ldImemVx 0xF) { s0 with index := 0x050 }] =
      [some .memWriteOutOfRange, none, some .glyphRomWrite, none] ∧
    [faultOf (.skp 0 0) (s0.setReg 0 16), faultOf (.sknp 0 0) (s0.setReg 0 15)] = [some .keyIndexOutOfRange, none] ∧
    (∃ t, exec (.call 0) { s0 with sp := 16 } = .next t) ∧ ∃ t, cycle { s0 with pc := 0xFFF } = .next t :=
  ⟨by decide, by decide, by decide, by decide, by decide, by decide, by decide, ⟨_, rfl⟩, ⟨_, rfl⟩⟩

/-- `TimersTickAfterExecute`: a cycle that sets a timer, one that does not, one that faults. -/
theorem witness_timerStep : (∃ w t, (s0.placeWord 0xF115).fault = none ∧ (s0.placeWord 0xF115).fetch = .ok w ∧
      cycle (s0.placeWord 0xF115) = .next t ∧ t.fault = none) ∧
    (∃ w t, (s0.placeWord 0x8008).fault = none ∧ (s0.placeWord 0x8008).fetch = .ok w ∧
      cycle (s0.placeWord 0x8008) = .next t ∧ t.fault = none) ∧
    (∃ w t, (s0.placeWord 0x00EE).fault = none ∧ (s0.placeWord 0x00EE).fetch = .ok w ∧
      cycle (s0.placeWord 0x00EE) = .next t ∧ t.fault ≠ none) :=
  ⟨⟨_, _, rfl, rfl, rfl, rfl⟩, ⟨_, _, rfl, rfl, rfl, rfl⟩, ⟨_, _, rfl, rfl, rfl, by decide⟩⟩

/-- `DT = 1` and two no-ops at 0x200. -/
def firstNop : State :=
  { s0 with mem := s0.mem.writeBytes 0x200 [0x80, 0x08, 0x80, 0x09], dt := 1, st := 9, keyInput := [0, 4] }

/-- The two no-ops, a key write before the second (S6 in small). -/
def twoNops : Nat → State
  | 0 => firstNop
  | 1 => { firstNop with pc := 0x202, opcode := 0x8008, dt := 0, st := 8, keyInput := [4] }
  | _ => { firstNop with pc := 0x204, opcode := 0x8009, dt := 0, st := 7, keypad := 4, keyInput := [] }

/-- `TimersCountCycles`, with `n = 2`. -/
theorem witness_timersCount : ∀ k, k < 2 → step (twoNops k) = .next (twoNops (k + 1)) ∧ (twoNops k).fault = none ∧
    (twoNops (k + 1)).fault = none ∧
    ∃ w, (twoNops k).fetch = .ok w ∧ (decodeWord w).op ∉ [Op.ldDtVx, .ldStVx] := by
  intro k hk
  match k, hk with
  | 0, _ => exact ⟨rfl, rfl, rfl, 0x8008, rfl, by decide⟩
  | 1, _ => exact ⟨rfl, rfl, rfl, 0x8009, rfl, by decide⟩

/-- `InputsMatterOnlyWhereRead`, `OnlyTheirWritersWrite`, `OnlyNamedRegistersChange`. -/
theorem witness_execNext : ∃ t, exec (.addVxVy 1 2) s0 = .next t ∧ (Instr.addVxVy 1 2).op ∉ [Op.skp, .sknp, .ldVxK] ∧
    (Instr.addVxVy 1 2).op ≠ .rnd ∧ (Instr.addVxVy 1 2).op ∉ [Op.ldBVx, .ldImemVx] ∧
    (Instr.addVxVy 1 2).op ∉ [Op.ldINnn, .addIVx, .ldFVx] ∧ (Instr.addVxVy 1 2).op ∉ [Op.call, .ret] ∧
    (Instr.addVxVy 1 2).op ≠ .call ∧ (Instr.addVxVy 1 2).op ∉ [Op.cls, .drw] ∧ writesReg (.addVxVy 1 2) 2 = false ∧
    writesReg (.addVxVy 1 2) 0xF = true ∧ writesReg (.ldVxImem 3) 4 = false :=
  ⟨_, rfl, by decide⟩

/-- `StepKeepsInvariant`. -/
theorem witness_inv : State.reset.Inv ∧ ∃ t, step State.reset = .next t := by
  refine ⟨⟨⟨rfl, fun c h => ?_⟩, ⟨by decide, by decide⟩, fun r h => ?_⟩, _, rfl⟩
  · cases h
  · cases h

/-- Parameters other than those the spec takes: a glyph ROM of ones, and `clip`. -/
def otherParams : Params := { glyphRom := Vector.replicate 80 0xFF, drawEdge := .clip }

/-- `ReachableStatesMeetInvariant`: a load, a key write, a cycle and a reset from the first reset, random draws and key writes to come. -/
theorem witness_reachable : Reachable otherParams (applyMoves [.load [0x61, 0x2A], .keys 0x0008, .advance, .reset]
    { State.resetWith otherParams with rndDraws := 7, keyInput := [0x0001] }) := ⟨_, _, _, rfl⟩

/-- `GlyphRomNeverAltered`, `HasResetValues`: both ends of the ROM, which reads as the parameter. -/
theorem witness_glyphRom : 0x000 ≤ 0x04F ∧ 0x04F ≤ 0x04F ∧ (State.resetWith otherParams).byte 0x04F = 0xFF ∧
    (State.resetWith otherParams).byte 0x050 = 0 ∧ State.reset.byte 0x000 = 0xF0 ∧ State.reset.byte 0x04F = 0x80 := by decide

/-- `PcFollowsTable`: the two ends the spec names, 0x1002 and 0x10FE, and the largest stack entry. -/
theorem witness_pcTable : (∃ t, exec (.seVxKk 0 0) lastSkip = .next t ∧ t.fault = none ∧ t.pc = 0x1002) ∧
    (∃ t, exec (.jpV0 0xFFF) (s0.setReg 0 0xFF) = .next t ∧ t.fault = none ∧ t.pc = 0x10FE) ∧
    lastSkip.fault = none ∧ lastSkip.pc.toNat ≤ 0xFFE ∧ (∀ k : Fin 16, lastSkip.stack[k].toNat ≤ 0x1000) ∧
    (∀ k : Fin 16, ({ s0 with stack := Vector.replicate 16 0x1000 } : State).stack[k].toNat ≤ 0x1000) :=
  ⟨⟨_, rfl, rfl, by decide⟩, ⟨_, rfl, rfl, by decide⟩, rfl, by decide, by decide, by decide⟩

/-- `LoadCopiesImage` and `LoadRejectsBadImage`: lengths 0, 1, 3584, 3585. -/
theorem witness_imageLengths : ([] : List Byte).length = 0 ∧ 1 ≤ [(0xAB : Byte)].length ∧
    (List.replicate 3584 (0xFF : Byte)).length = 3584 ∧ 3584 < (List.replicate 3585 (0xFF : Byte)).length :=
  ⟨rfl, by decide, List.length_replicate, by rw [List.length_replicate]; decide⟩

/-- `LoadTwiceIsLoadOnce`. -/
theorem witness_loadTwice : ∃ t, s0.load [1, 2, 3, 4, 5] = .ok t ∧ s0.mem.wf = true := ⟨_, rfl, rfl⟩

/-- `MemReadPrimitive`: each clause at its boundary. -/
theorem witness_memRead : (0 < 2 ∧ 0xFFF < 0xFFF + 2 - 1) ∧ 0xFFF + 1 - 1 ≤ 0xFFF ∧ s0.memRead 0xFFF 2 = .error .memReadOutOfRange ∧
    s0.memRead 0xFFF 1 = .ok [0] ∧ s0.memRead 0xFFFF 0 = .ok [] := by decide

/-- `MemWritePrimitive`: each clause at its boundary. -/
theorem witness_memWrite : 1 ≤ [(7 : Byte)].length ∧ 0xFFF < 0xFFF + [(7 : Byte), 7].length - 1 ∧
    (0x04F + [(7 : Byte)].length - 1 ≤ 0xFFF ∧ 0x04F ≤ 0x04F) ∧ (0xFFF + [(7 : Byte)].length - 1 ≤ 0xFFF ∧ 0x050 ≤ 0xFFF) ∧
    0x050 ≤ 0x050 ∧ s0.mem.wf = true := by decide

/-- `StoreSeenByNextFetch`, with `pc` at the last two stored bytes, and `StoreThenLoadRestores` with the registers
overwritten in between. -/
theorem witness_store : ∃ t, (at300 []).fault = none ∧ exec (.ldImemVx 1) (at300 []) = .next t ∧ t.fault = none ∧
    ({ t with pc := 0x300 } : State).mem = t.mem ∧ (0 : Nibble).toNat + 1 ≤ (1 : Nibble).toNat ∧
    ({ t with pc := 0x300 } : State).pc.toNat = (at300 []).dataAddr + (0 : Nibble).toNat ∧
    (t.setReg 0 0x77).index = (at300 []).index ∧ ∀ a, (t.setReg 0 0x77).byte a = t.byte a :=
  ⟨_, rfl, rfl, rfl, rfl, by decide, by decide, rfl, fun _ => rfl⟩

/-- `SelfJumpBecomesQuiescent` (P1's last instruction, at 0x200). -/
theorem witness_selfJump : (s0.placeWord 0x1200).fault = none ∧ (s0.placeWord 0x1200).fetch = .ok (encode (.jp 0x200)) ∧
    (s0.placeWord 0x1200).pc.toNat = (0x200 : Addr12).toNat ∧ (s0.placeWord 0x1200).dt = 0 ∧
    (s0.placeWord 0x1200).st = 0 := ⟨rfl, rfl, by decide, rfl, rfl⟩

/-- `ReturnPopsStack`, `CallPushesReturnAddress`: `sp` 0, 1, 15 and 16. -/
theorem witness_sp : s0.sp.val = 0 ∧ ({ s0 with sp := 1 } : State).sp.val ≠ 0 ∧ ({ s0 with sp := 15 } : State).sp.val < 16 ∧
    ({ s0 with sp := 16 } : State).sp.val = 16 ∧ ({ s0 with sp := 16 } : State).sp.val ≠ 0 := by decide

/-- `CallThenReturnResumes`, from the deepest call that completes. -/
theorem witness_callReturn : ∃ (t : State) (h : ({ s0 with sp := 15 } : State).sp.val < 16),
    exec (.call 0x300) { s0 with sp := 15 } = .next t ∧ t.sp = 16 ∧
    t.stack[({ s0 with sp := 15 } : State).sp.val] = 0x202 := ⟨_, by decide, rfl, rfl, by decide⟩

/-- `AddSetsCarry`, `SubtractSetsStrictFlag`, `ShiftInPlace` and every `RegsKeptBut`: a register beside the operands. -/
theorem witness_otherRegister : (1 : Nibble) ≠ 0xF ∧ (2 : Nibble) ≠ 1 ∧ (2 : Nibble) ≠ 0xF := by decide

/-- `DecimalDigitsStored`, `RegistersStored`, `RegistersLoaded`: both ends of each range. -/
theorem witness_dataAddr :
    (0x050 ≤ ({ s0 with index := 0x050 } : State).dataAddr ∧ ({ s0 with index := 0x050 } : State).dataAddr + 2 ≤ 0xFFF) ∧
    (0x050 ≤ ({ s0 with index := 0xFFD } : State).dataAddr ∧ ({ s0 with index := 0xFFD } : State).dataAddr + 2 ≤ 0xFFF) ∧
    0xFFF < ({ s0 with index := 0xFFE } : State).dataAddr + 2 ∧ ({ s0 with index := 0x04F } : State).dataAddr ≤ 0x04F ∧
    ({ s0 with index := 0xFF0 } : State).dataAddr + (0xF : Nibble).toNat ≤ 0xFFF ∧
    0xFFF < ({ s0 with index := 0xFF1 } : State).dataAddr + (0xF : Nibble).toNat ∧
    ({ s0 with index := 0xFFF } : State).dataAddr + (0 : Nibble).toNat ≤ 0xFFF ∧ s0.dataAddr ≤ 0x04F := by decide

/-- `DrawTogglesSpriteCells`, `ClipSkipsOffScreenPixels`: the ranges of `I`, with and without rows. -/
theorem witness_drawRange : (0 : Nibble).toNat = 0 ∧
    ({ s0 with index := 0xFFF } : State).dataAddr + (1 : Nibble).toNat - 1 ≤ 0xFFF ∧
    (0 < (2 : Nibble).toNat ∧ 0xFFF < ({ s0 with index := 0xFFF } : State).dataAddr + (2 : Nibble).toNat - 1) ∧
    (0 < (1 : Nibble).toNat ∧ 0xFFF < ({ s0 with index := 0x1000 } : State).dataAddr + (1 : Nibble).toNat - 1) := by decide

/-- Two set bits at the right edge, column 0 of row 4 lit, under the edge policy `edge`. -/
def edgeSprite (edge : DrawEdge) : State :=
  { ((at300 [0xC0]).setReg 0 0x3F).setReg 1 0x04 with
    video := lit [(0, 4)], params := { paramsTaken with drawEdge := edge } }

/-- `DrawTogglesSpriteCells`: under `wrap` the second pixel hits the lit cell at column 0; a row below hits nothing. -/
theorem witness_wrapHit : (edgeSprite .wrap).params.drawEdge = .wrap ∧ WrapHit (edgeSprite .wrap) 0 1 1 0 4 ∧
    (edgeSprite .wrap).cell 0 4 = true ∧ ¬ WrapHit (edgeSprite .wrap) 0 1 1 0 5 := by
  refine ⟨rfl, ⟨64, 4, ⟨0, 1, by decide, by decide, by decide, by decide, by decide⟩, by decide, by decide⟩, by decide, ?_⟩
  rintro ⟨qx, qy, ⟨r, c, h1, h2, _, _, h3⟩, _, h4⟩
  have e : ((edgeSprite .wrap).reg 1).toNat % 32 = 4 := by decide
  have e1 : (1 : Nibble).toNat = 1 := rfl
  have e5 : (5 : Fin 32).val = 5 := rfl
  omega

/-- `ClipSkipsOffScreenPixels`: under `clip` the first pixel hits column 63, the second none. -/
theorem witness_clipHit : (edgeSprite .clip).params.drawEdge = .clip ∧ ClipHit (edgeSprite .clip) 0 1 1 63 4 ∧
    (edgeSprite .clip).cell 63 4 = false ∧ ¬ ClipHit (edgeSprite .clip) 0 1 1 0 4 := by
  refine ⟨rfl, ⟨0, 0, by decide, by decide, by decide, by decide, by decide⟩, by decide, ?_⟩
  rintro ⟨r, c, _, _, _, h, _⟩
  have e : ((edgeSprite .clip).reg 0).toNat % 64 = 63 := by decide
  have e0 : (0 : Fin 64).val = 0 := rfl
  omega

-- G7
theorem test_drw_clips : run 0xD011 { edgeSprite .clip with video := Video.dark }
    (fun t => litCells t = [(63, 4)] && t.reg 0xF = 0) = true := by decide

/-- `DrawTwiceRestores`: a draw that completes and keeps its origin; a set row at 0x300 drawn from `(0,0)`. -/
theorem witness_drawTwice : (∃ t, (edgeSprite .clip).fault = none ∧ exec (.drw 0 1 1) (edgeSprite .clip) = .next t ∧
      t.fault = none ∧ (t.reg 0).toNat % 64 = ((edgeSprite .clip).reg 0).toNat % 64 ∧
      (t.reg 1).toNat % 32 = ((edgeSprite .clip).reg 1).toNat % 32 ∧
      (edgeSprite .clip).cell 63 4 = false ∧ t.cell 63 4 = true) ∧
    (at300 [0xFF]).dataAddr ≤ 0xFFF ∧ (at300 [0xFF]).byte (at300 [0xFF]).dataAddr = 0xFF ∧ (at300 [0xFF]).reg 0 = 0 :=
  ⟨⟨_, rfl, rfl, rfl, by decide, by decide, by decide, by decide⟩, by decide, by decide, by decide⟩

/-- `SkipOnKey`: the last key number and the first value that names none. -/
theorem witness_keyNumber : ((s0.setReg 2 15).reg 2).toNat = (15 : Fin 16).val ∧ 15 < ((s0.setReg 2 16).reg 2).toNat := by
  decide

/-- `KeyWait`: no key; key 0; keys 5 and 15. -/
theorem witness_keyWait : (∀ k, s0.keyDown k = false) ∧
    ({ s0 with keypad := 0x0001 } : State).keyDown 0 = true ∧
    ({ s0 with keypad := 0x8020 } : State).keyDown 5 = true ∧
    (∀ j, j < 5 → ({ s0 with keypad := 0x8020 } : State).keyDown j = false) := by decide

/-- `ParametersMatterOnlyWhereRead`: an instruction that reads neither parameter, and one that reads `GLYPH_ROM` alone. -/
theorem witness_params : (∃ t, exec (.addVxVy 1 2) s0 = .next t) ∧ (Instr.addVxVy 1 2).op ∉ [Op.drw, .ldVxImem] ∧
    (∃ t, exec (.ldVxImem 1) s0 = .next t) ∧ (Instr.ldVxImem 1).op ≠ .drw ∧ (Instr.ldVxImem 1).op ∈ [Op.drw, .ldVxImem] :=
  ⟨⟨_, rfl⟩, by decide, ⟨_, rfl⟩, by decide, by decide⟩

/-- The two policies differ on one sprite, and a read of the glyph ROM gives the parameter's byte. -/
theorem test_params_are_read : run 0xD011 (edgeSprite .wrap) (fun t => t.reg 0xF = 1) = true ∧
    run 0xD011 (edgeSprite .clip) (fun t => t.reg 0xF = 0) = true ∧
    run 0xF065 (State.resetWith otherParams) (fun t => t.reg 0 = 0xFF) = true := by decide

end Sys2Proof.Tests
end

/-!
The parameters of the machine (R6, R28; obligation O60). An execute step that does not read a parameter answers the
same when that parameter is replaced, so a cycle of the one machine is a cycle of the other; and nothing the machine or
its host does changes the parameters.
-/

namespace Sys2Proof.Machine

/-! ### Another machine: the same state under other parameters -/

/-- The state with its parameters replaced by `p`. -/
def State.withParams (s : State) (p : Params) : State := { s with params := p }

@[simp] theorem State.withParams_reg (s : State) (p : Params) (x : Nibble) : (s.withParams p).reg x = s.reg x := rfl
@[simp] theorem State.withParams_dataAddr (s : State) (p : Params) : (s.withParams p).dataAddr = s.dataAddr := rfl

@[simp] theorem State.withParams_lowestKey (s : State) (p : Params) : (s.withParams p).lowestKey = s.lowestKey := rfl

@[simp] theorem State.skipIf_withParams (s : State) (p : Params) (c : Bool) :
    (s.withParams p).skipIf c = (s.skipIf c).withParams p := by
  rw [State.skipIf_eq, State.skipIf_eq]; rfl

theorem State.memWrite_withParams (s : State) (p : Params) (addr : Nat) (bytes : List Byte) :
    (s.withParams p).memWrite addr bytes = (s.memWrite addr bytes).map (·.withParams p) := by
  unfold State.memWrite
  split
  · rfl
  · split <;> rfl

/-- A byte of memory depends on `GLYPH_ROM` and on no other parameter (R23, R31). -/
theorem State.byte_withParams (s : State) (p : Params) (a : Nat) (hp : p.glyphRom = s.params.glyphRom) :
    (s.withParams p).byte a = s.byte a := by
  by_cases ha : a ≤ 0x04F
  · rw [State.byte_rom _ a ha, State.byte_rom s a ha]
    exact congrArg (fun rom => rom[a]) hp
  · rw [State.byte_ram _ a (by omega), State.byte_ram s a (by omega)]; rfl

theorem State.memRead_withParams (s : State) (p : Params) (addr n : Nat) (hp : p.glyphRom = s.params.glyphRom) :
    (s.withParams p).memRead addr n = s.memRead addr n := by
  simp only [State.memRead, State.bytes, s.byte_withParams p _ hp]

/-! ### Execute steps and parameters -/

/-- The execute step `e` from `s` is the same under the parameters `p`: the same fault, or the same next state but for
the parameters. -/
def Effect.Ignores (e : Effect) (s : State) (p : Params) : Prop :=
  e (s.withParams p) = (e s).map (·.withParams p)

theorem retEffect_ignores (s : State) (p : Params) : Effect.Ignores retEffect s p := by
  by_cases h : s.sp.val = 0
  · rw [Effect.Ignores, retEffect_fault s h, retEffect_fault (s.withParams p) h]; rfl
  · rw [Effect.Ignores, retEffect_ok s h, retEffect_ok (s.withParams p) h]; rfl

theorem callEffect_ignores (nnn : Addr12) (s : State) (p : Params) : Effect.Ignores (callEffect nnn) s p := by
  by_cases h : s.sp.val < 16
  · rw [Effect.Ignores, callEffect_ok nnn s h, callEffect_ok nnn (s.withParams p) h]; rfl
  · have hfull : s.sp.val = 16 := by have := s.sp.isLt; omega
    rw [Effect.Ignores, callEffect_fault nnn s hfull, callEffect_fault nnn (s.withParams p) hfull]; rfl

/-- The two key tests name the same key or fault alike, and then skip or not. -/
theorem skpEffect_sknpEffect_ignore (x : Nibble) (s : State) (p : Params) :
    Effect.Ignores (skpEffect x) s p ∧ Effect.Ignores (sknpEffect x) s p := by
  unfold Effect.Ignores skpEffect sknpEffect
  rw [State.withParams_reg]
  cases keyIndex (s.reg x) with
  | error f => exact ⟨rfl, rfl⟩
  | ok k => exact ⟨congrArg Except.ok (s.skipIf_withParams p _), congrArg Except.ok (s.skipIf_withParams p _)⟩

theorem ldVxKEffect_ignores (x : Nibble) (s : State) (p : Params) : Effect.Ignores (ldVxKEffect x) s p := by
  unfold Effect.Ignores ldVxKEffect
  rw [State.withParams_lowestKey]
  cases s.lowestKey <;> rfl

theorem ldVxImemEffect_ignores (x : Nibble) (s : State) (p : Params) (hp : p.glyphRom = s.params.glyphRom) :
    Effect.Ignores (ldVxImemEffect x) s p := by
  unfold Effect.Ignores ldVxImemEffect
  rw [s.memRead_withParams p _ _ hp, State.withParams_dataAddr]
  cases s.memRead s.dataAddr (x.toNat + 1) <;> rfl

/-- `Dxyn` and `Fx65` apart, no execute step reads a parameter. -/
theorem effectOf_ignores (i : Instr) (s : State) (p : Params) (hi : i.op ∉ [Op.drw, .ldVxImem]) :
    Effect.Ignores (effectOf i) s p := by
  cases i
  case drw | ldVxImem => exact absurd hi (by simp [Instr.op])
  case ret => exact retEffect_ignores s p
  case call nnn => exact callEffect_ignores nnn s p
  case skp x _ => exact (skpEffect_sknpEffect_ignore x s p).1
  case sknp x _ => exact (skpEffect_sknpEffect_ignore x s p).2
  case ldVxK x => exact ldVxKEffect_ignores x s p
  case ldBVx x => exact s.memWrite_withParams p _ _
  case ldImemVx x => exact s.memWrite_withParams p _ _
  case seVxKk | sneVxKk | seVxVy | sneVxVy => exact congrArg Except.ok (s.skipIf_withParams p _)
  all_goals rfl

/-- `Dxyn` apart, no execute step reads `DRAW_EDGE`. -/
theorem effectOf_ignores_drawEdge (i : Instr) (s : State) (e : DrawEdge) (hi : i.op ≠ .drw) :
    Effect.Ignores (effectOf i) s { s.params with drawEdge := e } := by
  by_cases hload : i.op = .ldVxImem
  · cases i <;> cases hload
    exact ldVxImemEffect_ignores _ s _ rfl
  · exact effectOf_ignores i s _ (by simp [hi, hload])

/-- Where the execute step ignores the parameters, so does the cycle around it. -/
theorem exec_withParams (i : Instr) (s t : State) (p : Params)
    (hi : Effect.Ignores (effectOf i) (s.latchAndAdvance (encode i)) p) (h : exec i s = .next t) :
    exec i (s.withParams p) = .next (t.withParams p) := by
  rw [exec_eq]
  rcases exec_cases i s t h with ⟨u, hu, rfl⟩ | ⟨c, hc, rfl⟩
  · exact State.runCycle_ok _ (u.withParams p) _ _ (hi.trans (by rw [hu]; rfl))
  · exact State.runCycle_error _ _ _ c (hi.trans (by rw [hc]; rfl))

/-! ### Nothing changes the parameters -/

theorem exec_params (i : Instr) (s t : State) (h : exec i s = .next t) : t.params = s.params := by
  rcases exec_cases i s t h with ⟨u, hu, rfl⟩ | ⟨c, _, rfl⟩
  · obtain ⟨_, _, _, _, hparams⟩ := effectOf_frame i _ u hu
    exact hparams
  · rfl

theorem cycle_params (s t : State) (h : cycle s = .next t) : t.params = s.params := by
  by_cases hf : s.fault = none
  · cases hw : s.fetch with
    | error c => rw [cycle_fetchFault s c hf hw] at h; cases h; rfl
    | ok w => rw [cycle_fetched s w hf hw] at h; exact exec_params _ s t h
  · rw [cycle_halted s hf] at h; cases h; rfl

theorem step_params (s t : State) (h : step s = .next t) : t.params = s.params :=
  (cycle_params s.takeKeys t h).trans s.takeKeys_params

theorem State.load_params (s t : State) (image : List Byte) (h : s.load image = .ok t) : t.params = s.params := by
  unfold State.load at h
  split at h
  · cases h
  · split at h <;> cases h
    rfl

/-- No move of the host changes the parameters (R28, R145). -/
theorem applyMove_params (m : Move) (s : State) : (applyMove m s).params = s.params := by
  cases m with
  | reset => rfl
  | keys k => rfl
  | load image =>
    simp only [applyMove]
    split
    · next t h => exact s.load_params t image h
    · rfl
  | advance =>
    simp only [applyMove]
    split
    · next t h => exact step_params s t h
    · rfl
    · rfl

end Sys2Proof.Machine

namespace Sys2Proof.Claims

open Sys2Proof.Machine

/-- Settles O60: every move and cycle keeps the parameters, and a change of them passes through every execute step that
does not read them. -/
theorem parametersMatterOnlyWhereRead : Obligations.ParametersMatterOnlyWhereRead := by
  refine ⟨applyMove_params, fun i s t h => ⟨exec_params i s t h, fun hi p => ?_, fun hi e => ?_⟩⟩
  · exact exec_withParams i s t p (effectOf_ignores i _ p hi) h
  · rw [exec_params i s t h]
    exact exec_withParams i s t _ (effectOf_ignores_drawEdge i _ e hi) h

end Sys2Proof.Claims

/-!
What each execute step writes (R11 to R20, R37) and where it leaves `pc` (R15): obligations O20, O21 and O22.
-/

namespace Sys2Proof.Machine

open Sys2Proof.Claims

/-! ### A skip moves `pc` and nothing else -/

@[simp] theorem State.skipIf_mem (s : State) (c : Bool) : (s.skipIf c).mem = s.mem := by rw [State.skipIf_eq]
@[simp] theorem State.skipIf_index (s : State) (c : Bool) : (s.skipIf c).index = s.index := by rw [State.skipIf_eq]
@[simp] theorem State.skipIf_sp (s : State) (c : Bool) : (s.skipIf c).sp = s.sp := by rw [State.skipIf_eq]
@[simp] theorem State.skipIf_stack (s : State) (c : Bool) : (s.skipIf c).stack = s.stack := by rw [State.skipIf_eq]
@[simp] theorem State.skipIf_video (s : State) (c : Bool) : (s.skipIf c).video = s.video := by rw [State.skipIf_eq]
@[simp] theorem State.skipIf_reg (s : State) (c : Bool) (r : Nibble) : (s.skipIf c).reg r = s.reg r := by
  rw [State.skipIf_eq]; rfl

/-- The skip of a cycle counts from the instruction's own address (R72). -/
theorem State.latchAndAdvance_skipIf_pc (s : State) (w : Word) (c : Bool) :
    ((s.latchAndAdvance w).skipIf c).pc = if c then s.pc + 4 else s.pc + 2 := by
  cases c
  · rfl
  · exact BitVec.add_assoc s.pc 2 2

/-! ### Only its writers write a field -/

/-- An execute step writes memory, `I`, `sp`, the stack entries and the framebuffer only where its operation is one of
their writers (R37, R14, R17, R16, R19). -/
theorem effectOf_onlyWriters (i : Instr) (s u : State) (h : effectOf i s = .ok u) :
    (i.op ∉ [Op.ldBVx, .ldImemVx] → u.mem = s.mem) ∧ (i.op ∉ [Op.ldINnn, .addIVx, .ldFVx] → u.index = s.index) ∧
    (i.op ∉ [Op.call, .ret] → u.sp = s.sp) ∧ (i.op ≠ .call → u.stack = s.stack) ∧
    (i.op ∉ [Op.cls, .drw] → u.video = s.video) := by
  cases i <;> simp only [effectOf] at h
  case ret => obtain ⟨_, rfl⟩ := retEffect_inv _ _ h; simp [Instr.op]
  case call => obtain ⟨_, rfl⟩ := callEffect_inv _ _ _ h; simp [Instr.op]
  case skp => obtain ⟨_, rfl⟩ := skpEffect_inv _ _ _ h; simp
  case sknp => obtain ⟨_, rfl⟩ := sknpEffect_inv _ _ _ h; simp
  case ldVxK => rcases ldVxKEffect_inv _ _ _ h with ⟨_, rfl⟩ | ⟨_, _, rfl⟩ <;> simp
  case ldVxImem => obtain ⟨_, rfl⟩ := ldVxImemEffect_inv _ _ _ h; simp
  case drw => obtain ⟨_, rfl⟩ := drwEffect_inv _ _ _ _ _ h; simp [Instr.op]
  case ldBVx => obtain ⟨_, _, rfl⟩ := State.memWrite_inv _ _ _ _ h; simp [Instr.op]
  case ldImemVx => obtain ⟨_, _, rfl⟩ := State.memWrite_inv _ _ _ _ h; simp [Instr.op]
  all_goals cases h; simp [Instr.op]

/-- An execute step writes only the general registers `writesReg` names (R11, R12). -/
theorem effectOf_reg (i : Instr) (s u : State) (r : Nibble) (h : effectOf i s = .ok u) (hr : writesReg i r = false) :
    u.reg r = s.reg r := by
  cases i <;> simp only [effectOf] at h <;> simp only [writesReg, Bool.or_eq_false_iff, decide_eq_false_iff_not] at hr
  case ret => obtain ⟨_, rfl⟩ := retEffect_inv _ _ h; rfl
  case call => obtain ⟨_, rfl⟩ := callEffect_inv _ _ _ h; rfl
  case skp => obtain ⟨_, rfl⟩ := skpEffect_inv _ _ _ h; simp
  case sknp => obtain ⟨_, rfl⟩ := sknpEffect_inv _ _ _ h; simp
  case ldVxK => rcases ldVxKEffect_inv _ _ _ h with ⟨_, rfl⟩ | ⟨_, _, rfl⟩ <;> simp [hr]
  case ldVxImem x =>
    obtain ⟨_, rfl⟩ := ldVxImemEffect_inv _ _ _ h
    rw [State.setRegsFrom0_reg, State.bytes_getD, if_neg (by omega)]
  case drw => obtain ⟨_, rfl⟩ := drwEffect_inv _ _ _ _ _ h; simp [show r ≠ vf from hr]
  case ldBVx => obtain ⟨_, _, rfl⟩ := State.memWrite_inv _ _ _ _ h; rfl
  case ldImemVx => obtain ⟨_, _, rfl⟩ := State.memWrite_inv _ _ _ _ h; rfl
  case addVxVy | sub | shr | subn | shl =>
    obtain ⟨hx, hvf⟩ := hr
    cases h; simp [hx, show r ≠ vf from hvf]
  all_goals cases h; simp [hr]

/-! ### The table of new `pc` values -/

theorem target_eq_ofNat (nnn : Addr12) : target nnn = BitVec.ofNat 16 nnn.toNat :=
  BitVec.eq_of_toNat_eq (by simp [target])

theorem State.indexedTarget_eq_ofNat (s : State) (nnn : Addr12) :
    s.indexedTarget nnn = BitVec.ofNat 16 ((s.reg 0).toNat + nnn.toNat) := by
  rw [BitVec.ofNat_add, ← target_eq_ofNat]
  exact congrArg (· + target nnn) (BitVec.eq_of_toNat_eq (by simp))

/-- The key wait waits exactly while every keypad flag is clear (R122). -/
theorem State.lowestKey_eq_none_iff (s : State) : s.lowestKey = none ↔ s.keypad = 0 := by
  constructor
  · intro h
    exact BitVec.eq_of_getLsbD_eq fun k hk => (s.lowestKey_none h ⟨k, hk⟩).trans (by simp)
  · intro h
    simp [State.lowestKey, State.keyDown, h]

/-- A completing execute step leaves `pc` where the table of R15 says. -/
theorem effectOf_pc (i : Instr) (s u : State) (w : Word) (h : effectOf i (s.latchAndAdvance w) = .ok u) :
    u.pc = nextPc i s := by
  cases i <;> simp only [effectOf] at h
  case ret => obtain ⟨_, rfl⟩ := retEffect_inv _ _ h; rfl
  case call nnn => obtain ⟨_, rfl⟩ := callEffect_inv _ _ _ h; exact target_eq_ofNat nnn
  case jp nnn => cases h; exact target_eq_ofNat nnn
  case jpV0 nnn => cases h; exact s.indexedTarget_eq_ofNat nnn
  case seVxKk | seVxVy => cases h; simp only [State.latchAndAdvance_skipIf_pc, decide_eq_true_eq]; rfl
  case sneVxKk | sneVxVy => cases h; simp only [State.latchAndAdvance_skipIf_pc, decide_eq_true_eq, ite_not]; rfl
  case skp => obtain ⟨_, rfl⟩ := skpEffect_inv _ _ _ h; exact s.latchAndAdvance_skipIf_pc w _
  case sknp =>
    obtain ⟨_, rfl⟩ := sknpEffect_inv _ _ _ h
    simp only [State.latchAndAdvance_skipIf_pc, Bool.not_eq_true', ← Bool.not_eq_true, ite_not]
    rfl
  case ldVxK =>
    rcases ldVxKEffect_inv _ _ _ h with ⟨hnone, rfl⟩ | ⟨k, hsome, rfl⟩
    · have hk : s.keypad = 0 := s.lowestKey_eq_none_iff.1 hnone
      exact (BitVec.add_sub_cancel s.pc 2).trans (if_pos hk).symm
    · have hk : s.keypad ≠ 0 := fun e => by
        have hnone : s.lowestKey = none := s.lowestKey_eq_none_iff.2 e
        exact absurd (hnone.symm.trans hsome) (by simp)
      exact (if_neg hk).symm
  case ldVxImem => obtain ⟨_, rfl⟩ := ldVxImemEffect_inv _ _ _ h; rfl
  case drw => obtain ⟨_, rfl⟩ := drwEffect_inv _ _ _ _ _ h; rfl
  case ldBVx => obtain ⟨_, _, rfl⟩ := State.memWrite_inv _ _ _ _ h; rfl
  case ldImemVx => obtain ⟨_, _, rfl⟩ := State.memWrite_inv _ _ _ _ h; rfl
  all_goals cases h; rfl

/-- The largest value of R15: from a `pc` that fetches, the table gives at most 0xFF + 0xFFF. -/
theorem nextPc_le (i : Instr) (s : State) (hpc : s.pc.toNat ≤ 0xFFE)
    (hstack : ∀ k : Fin 16, s.stack[k].toNat ≤ 0x1000) : (nextPc i s).toNat ≤ 0x10FE := by
  have h2 : (s.pc + 2).toNat ≤ 0x10FE := by bv_omega
  have h4 : (s.pc + 4).toNat ≤ 0x10FE := by bv_omega
  cases i <;> simp only [nextPc]
  case ret => exact (hstack ⟨s.sp.val - 1, by have := s.sp.isLt; omega⟩).trans (by decide)
  case jp nnn | call nnn => rw [BitVec.toNat_ofNat]; omega
  case jpV0 nnn => rw [BitVec.toNat_ofNat]; have := (s.reg 0).isLt; omega
  case ldVxK => split <;> omega
  case seVxKk | sneVxKk | seVxVy | sneVxVy | skp | sknp => split <;> assumption
  all_goals exact h2

end Sys2Proof.Machine

namespace Sys2Proof.Claims

open Sys2Proof.Machine

/-- Settles O20: a completing step by `effectOf_onlyWriters`; a faulting one leaves everything but the latch. -/
theorem onlyTheirWritersWrite : Obligations.OnlyTheirWritersWrite := by
  intro i s t h
  rcases exec_cases i s t h with ⟨u, hu, rfl⟩ | ⟨c, _, rfl⟩
  · obtain ⟨hmem, hindex, hsp, hstack, hvideo⟩ := effectOf_onlyWriters i _ u hu
    obtain ⟨_, _, hkeypad, hkeys, hparams⟩ := effectOf_frame i _ u hu
    exact ⟨fun hi => State.byte_congr s u (hmem hi) hparams, hindex, hsp, hstack,
      fun hi px py => congrArg (Video.cell · px py) (hvideo hi), hkeypad, hkeys⟩
  · exact ⟨fun _ _ => rfl, fun _ => rfl, fun _ => rfl, fun _ => rfl, fun _ _ _ => rfl, rfl, rfl⟩

/-- Settles O21: a completing step by `effectOf_reg`; a faulting one writes no register. -/
theorem onlyNamedRegistersChange : Obligations.OnlyNamedRegistersChange := by
  intro i s t r h hr
  rcases exec_cases i s t h with ⟨u, hu, rfl⟩ | ⟨c, _, rfl⟩
  · exact effectOf_reg i (s.latchAndAdvance (encode i)) u r hu hr
  · rfl

/-- Settles O22: `effectOf_pc` gives the table's value and `nextPc_le` bounds it. -/
theorem pcFollowsTable : Obligations.PcFollowsTable := by
  intro i s t _ h ht
  rcases exec_cases i s t h with ⟨u, hu, rfl⟩ | ⟨c, _, rfl⟩
  · have hpc : u.tickTimers.pc = nextPc i s := effectOf_pc i s u _ hu
    exact ⟨hpc, fun hfetch hstack => by rw [hpc]; exact nextPc_le i s hfetch hstack⟩
  · exact absurd ht (by simp)

end Sys2Proof.Claims

/-!
The invariant of the Machine State (R29): it holds at reset, every cycle and every move of the host keeps it, so every
reachable state meets it: obligations O16, O17, O18 and O23.
-/

namespace Sys2Proof.Machine

open Sys2Proof.Claims

/-! ### Each part of the invariant under an execute step -/

/-- The invariant speaks of memory, `pc`, the stack entries and the fault latch, and of no other field. -/
theorem State.Inv.congr {s t : State} (h : s.Inv) (hmem : t.mem = s.mem) (hpc : t.pc = s.pc)
    (hstack : t.stack = s.stack) (hfault : t.fault = s.fault) : t.Inv := by
  simpa only [State.Inv, State.MemoryOk, State.AddressesBounded, State.LatchPrecise, hmem, hpc, hstack, hfault] using h

/-- A run of writes that stays within RAM keeps the memory part. -/
theorem State.MemoryOk.writeBytes {s : State} (h : s.MemoryOk) (a : Nat) (bytes : List Byte) (ha : 0x050 ≤ a)
    (hend : a + bytes.length ≤ 0x1000) : ({ s with mem := s.mem.writeBytes a bytes } : State).MemoryOk := by
  obtain ⟨hwf, hram⟩ := h
  refine ⟨Memory.writeBytes_wf bytes s.mem a hwf, fun c hc => ?_⟩
  rcases Memory.mem_writeBytes bytes s.mem a c hc with hrun | hold
  · omega
  · exact hram c hold

/-- `MemWrite` keeps the memory part: what it writes it has checked (R34). -/
theorem State.MemoryOk.memWrite {s t : State} (h : s.MemoryOk) (a : Nat) (bytes : List Byte)
    (ht : s.memWrite a bytes = .ok t) : t.MemoryOk := by
  obtain ⟨ha, hend, rfl⟩ := State.memWrite_inv s t a bytes ht
  exact h.writeBytes a bytes ha (by omega)

theorem effectOf_memoryOk (i : Instr) (s u : State) (hs : s.MemoryOk) (h : effectOf i s = .ok u) : u.MemoryOk := by
  by_cases hi : i.op ∈ [Op.ldBVx, .ldImemVx]
  · cases i <;> simp only [Instr.op, List.mem_cons, List.not_mem_nil, reduceCtorEq, or_false, or_true] at hi
    case ldBVx => exact hs.memWrite _ _ h
    case ldImemVx => exact hs.memWrite _ _ h
  · obtain ⟨hmem, _⟩ := effectOf_onlyWriters i s u h
    rwa [State.MemoryOk, hmem hi]

/-- The one entry an execute step can write is the return address of a call, the advanced `pc` (R83). -/
theorem effectOf_stack_le (i : Instr) (s u : State) (b : Nat) (hpc : s.pc.toNat ≤ b)
    (hs : ∀ k : Fin 16, s.stack[k].toNat ≤ b) (h : effectOf i s = .ok u) (k : Fin 16) : u.stack[k].toNat ≤ b := by
  by_cases hi : i.op = .call
  · cases i <;> cases hi
    obtain ⟨_, rfl⟩ := callEffect_inv _ s u h
    simp only [Fin.getElem_fin, Vector.getElem_set]
    split
    · exact hpc
    · exact hs k
  · obtain ⟨_, _, _, hstack, _⟩ := effectOf_onlyWriters i s u h
    rw [hstack hi]
    exact hs k

/-! ### No execute step raises the fetch's fault -/

theorem State.memWrite_ne_fetchFault (s : State) (a : Nat) (bytes : List Byte) :
    s.memWrite a bytes ≠ .error .fetchOutOfRange := by
  unfold State.memWrite
  split
  · simp
  · split <;> simp

/-- The code `FetchOutOfRange` is the fetch's alone (R131). -/
theorem effectOf_ne_fetchFault (i : Instr) (s : State) : effectOf i s ≠ .error .fetchOutOfRange := by
  cases i <;> simp only [effectOf]
  case ret =>
    by_cases h : s.sp.val = 0
    · simp [retEffect_fault s h]
    · simp [retEffect_ok s h]
  case call nnn =>
    by_cases h : s.sp.val < 16
    · simp [callEffect_ok nnn s h]
    · simp [callEffect_fault nnn s (by have := s.sp.isLt; omega)]
  case skp x _ =>
    by_cases h : (s.reg x).toNat < 16
    · simp [skpEffect_ok x s h]
    · simp [skpEffect_fault x s (by omega)]
  case sknp x _ =>
    by_cases h : (s.reg x).toNat < 16
    · simp [sknpEffect_ok x s h]
    · simp [sknpEffect_fault x s (by omega)]
  case ldVxK x => rcases ldVxKEffect_cases x s with ⟨_, h⟩ | ⟨_, _, h⟩ <;> simp [h]
  case ldVxImem x =>
    by_cases h : s.dataAddr + x.toNat ≤ 0xFFF
    · simp [ldVxImemEffect_ok x s h]
    · simp [ldVxImemEffect_fault x s (by omega)]
  case drw x y n =>
    by_cases h : n.toNat = 0 ∨ s.dataAddr + n.toNat - 1 ≤ 0xFFF
    · simp [drwEffect_ok x y n s h]
    · simp [drwEffect_fault x y n s (by omega) (by omega)]
  case ldBVx => exact s.memWrite_ne_fetchFault _ _
  case ldImemVx => exact s.memWrite_ne_fetchFault _ _
  all_goals exact fun h => nomatch h

/-! ### The cycle and the step -/

/-- Latching a fault keeps the invariant where the record carries a word exactly when the code is not the fetch's
(R24, R132). -/
theorem State.Inv.raise {s : State} (h : s.Inv) (c : Fault) (w : Option Word)
    (hw : w = none ↔ c = .fetchOutOfRange) : (s.raise c w).Inv := by
  obtain ⟨hmem, haddr, _⟩ := h
  refine ⟨hmem, haddr, fun r hr => ?_⟩
  cases hr
  exact ⟨rfl, hw⟩

/-- An instruction that was fetched keeps the invariant: its address is at most 0xFFE, so what a call pushes is at most
0x1000 and the new `pc` at most 0x10FE. -/
theorem exec_keepsInv (i : Instr) (s t : State) (hs : s.Inv) (hfault : s.fault = none) (hfetch : s.pc.toNat ≤ 0xFFE)
    (h : exec i s = .next t) : t.Inv := by
  have ⟨hmem, ⟨_, hstack⟩, _⟩ := hs
  rcases exec_cases i s t h with ⟨u, hu, rfl⟩ | ⟨c, hc, rfl⟩
  · have hadvanced : (s.latchAndAdvance (encode i)).pc.toNat ≤ 0x1000 := by
      rw [State.latchAndAdvance_pc]; bv_omega
    have hpc : u.pc.toNat ≤ 0x10FE := by
      rw [effectOf_pc i s u _ hu]; exact nextPc_le i s hfetch hstack
    obtain ⟨_, hnofault, _⟩ := effectOf_frame i _ u hu
    have hnone : u.fault = none := hnofault.trans hfault
    exact ⟨effectOf_memoryOk i (s.latchAndAdvance (encode i)) u hmem hu,
      ⟨hpc, effectOf_stack_le i _ u 0x1000 hadvanced hstack hu⟩, fun r hr => nomatch hnone.symm.trans hr⟩
  · have hcode : c ≠ .fetchOutOfRange := fun e => effectOf_ne_fetchFault i _ (e ▸ hc)
    exact hs.raise c _ ⟨fun e => by simp at e, fun e => absurd e hcode⟩

theorem cycle_keepsInv (s t : State) (hs : s.Inv) (h : cycle s = .next t) : t.Inv := by
  by_cases hfault : s.fault = none
  · by_cases hpc : s.pc.toNat ≤ 0xFFE
    · rw [cycle_fetched s _ hfault (s.fetch_ok hpc)] at h
      exact exec_keepsInv _ s t hs hfault hpc h
    · rw [cycle_fetchFault s _ hfault (s.fetch_fault (by omega))] at h
      cases h
      exact hs.raise _ none ⟨fun _ => rfl, fun _ => rfl⟩
  · rw [cycle_halted s hfault] at h
    cases h
    exact hs

theorem step_keepsInv (s t : State) (hs : s.Inv) (h : step s = .next t) : t.Inv :=
  cycle_keepsInv s.takeKeys t
    (hs.congr s.takeKeys_mem s.takeKeys_pc s.takeKeys_stack s.takeKeys_fault) h

/-! ### Reset, the host's moves, the reachable states -/

theorem State.resetWith_meetsInv (p : Params) : (State.resetWith p).Inv :=
  ⟨⟨rfl, fun _ hc => nomatch hc⟩, ⟨by simp [State.resetWith], fun k => by simp [State.resetWith]⟩, fun _ hr => nomatch hr⟩

/-- `load` answers `ok` only for an image of 1 to 3584 bytes, and writes it at 0x200 (R154, R155). -/
theorem State.load_inv (s t : State) (image : List Byte) (h : s.load image = .ok t) :
    0 < image.length ∧ image.length ≤ 3584 ∧ t = { s with mem := s.mem.writeBytes 0x200 image } := by
  unfold State.load at h
  split at h
  · cases h
  · split at h <;> cases h
    exact ⟨by omega, by omega, rfl⟩

theorem State.load_keepsInv (s t : State) (image : List Byte) (hs : s.Inv) (h : s.load image = .ok t) : t.Inv := by
  obtain ⟨_, hlength, rfl⟩ := s.load_inv t image h
  obtain ⟨hmem, hrest⟩ := hs
  exact ⟨hmem.writeBytes 0x200 image (by decide) (by omega), hrest⟩

/-- Every move of the host keeps the invariant (R29, R145). -/
theorem applyMove_keepsInv (m : Move) (s : State) (hs : s.Inv) : (applyMove m s).Inv := by
  cases m with
  | reset => exact (State.resetWith_meetsInv s.params).congr rfl rfl rfl rfl
  | keys k => exact hs.congr rfl rfl rfl rfl
  | load image =>
    simp only [applyMove]
    split
    · next t h => exact s.load_keepsInv t image hs h
    · exact hs
  | advance =>
    simp only [applyMove]
    split
    · next t h => exact step_keepsInv s t hs h
    · exact hs
    · exact hs

theorem applyMoves_keepsInv (ms : List Move) : ∀ s : State, s.Inv → (applyMoves ms s).Inv := by
  induction ms with
  | nil => exact fun _ hs => hs
  | cons m rest ih => exact fun s hs => ih _ (applyMove_keepsInv m s hs)

theorem applyMoves_params (ms : List Move) : ∀ s : State, (applyMoves ms s).params = s.params := by
  induction ms with
  | nil => exact fun _ => rfl
  | cons m rest ih => exact fun s => (ih _).trans (applyMove_params m s)

theorem Reachable.meetsInv {p : Params} {s : State} (h : Reachable p s) : s.Inv := by
  obtain ⟨ms, draws, keys, rfl⟩ := h
  exact applyMoves_keepsInv ms _ ((State.resetWith_meetsInv p).congr rfl rfl rfl rfl)

theorem Reachable.params_eq {p : Params} {s : State} (h : Reachable p s) : s.params = p := by
  obtain ⟨ms, draws, keys, rfl⟩ := h
  exact applyMoves_params ms _

/-- Reset leaves the values of R27's table. -/
theorem State.resetWith_values (p : Params) : HasResetValues p (State.resetWith p) :=
  ⟨fun a h => State.byte_rom _ a h, fun a h _ => State.byte_ram _ a h, fun x => by simp [State.resetWith, State.reg],
    rfl, rfl, fun k => by simp [State.resetWith], rfl, rfl, rfl, Video.dark_cell,
    fun k => by simp [State.resetWith, State.keyDown], rfl, rfl⟩

end Sys2Proof.Machine

namespace Sys2Proof.Claims

open Sys2Proof.Machine

/-- Settles O16, the base case of the invariant. -/
theorem resetMeetsInvariant : Obligations.ResetMeetsInvariant :=
  ⟨State.resetWith_meetsInv paramsTaken, State.resetWith_meetsInv⟩

/-- Settles O17, the step case of the invariant: a fetched instruction by `exec_keepsInv`, a failed fetch by the latch it
sets. -/
theorem stepKeepsInvariant : Obligations.StepKeepsInvariant := step_keepsInv

/-- Settles O18 by induction on the host's moves. -/
theorem reachableStatesMeetInvariant : Obligations.ReachableStatesMeetInvariant := by
  intro p s h
  obtain rfl : s.params = p := h.params_eq
  exact ⟨h.meetsInv, by have := s.sp.isLt; omega, s.byte_rom, rfl, cycle_halted s⟩

/-- Settles O23: each field of the reset state, for every `GLYPH_ROM`. -/
theorem resetValues : Obligations.ResetValues :=
  ⟨State.resetWith_values, State.resetWith_values paramsTaken⟩

end Sys2Proof.Claims

/-!
The address space (R30 to R37, R44): what the glyph ROM reads as, the two access primitives, and a fetch of stored
bytes: obligations O19, O28, O29 and O31.
-/

namespace Sys2Proof.Machine

/-! ### What a byte depends on -/

/-- In the glyph ROM an address reads alike in two states with the same parameters, whatever the RAM holds (R23). -/
theorem State.byte_rom_congr (s t : State) (hp : t.params = s.params) (a : Nat) (ha : a ≤ 0x04F) :
    t.byte a = s.byte a := by
  rw [State.byte_rom t a ha, State.byte_rom s a ha, hp]

/-- Above the glyph ROM an address reads alike in two states with the same RAM, whatever the parameters (R31). -/
theorem State.byte_ram_congr (s t : State) (hm : t.mem = s.mem) (a : Nat) (ha : 0x050 ≤ a) :
    t.byte a = s.byte a := by
  rw [State.byte_ram t a ha, State.byte_ram s a ha, hm]

/-- After a run of writes to RAM each address of the run reads as the byte written there. -/
theorem State.byte_writeBytes_inside (s : State) (a k : Nat) (bytes : List Byte) (h : 0x050 ≤ a)
    (hk : k < bytes.length) : ({ s with mem := s.mem.writeBytes a bytes } : State).byte (a + k) = bytes[k] := by
  rw [State.byte_writeBytes s a (a + k) bytes h, if_pos (Nat.le_add_right a k), Nat.add_sub_cancel_left,
    List.getD_eq_getElem _ _ hk]

/-! ### The second check of `MemWrite` and the bytes of `Fx55` -/

/-- A run that stays within memory and starts in the glyph ROM, of any length, is refused by the second check (R34). -/
theorem State.memWrite_glyphRom_of_inRange (s : State) (addr : Nat) (bytes : List Byte)
    (hend : addr + bytes.length - 1 ≤ 0xFFF) (h : addr ≤ 0x04F) : s.memWrite addr bytes = .error .glyphRomWrite := by
  unfold State.memWrite
  rw [if_neg (by omega), if_pos h]

theorem State.regsUpTo_getElem (s : State) (x : Nibble) (k : Nat) (hk : k < (s.regsUpTo x).length) :
    (s.regsUpTo x)[k] = s.reg (BitVec.ofNat 4 k) := by
  simp [State.regsUpTo]

/-- A completed store of `V[0]` to `V[x]` stays within RAM and leaves register `k` at `I + k`, for every `k` up to `x`
(R110). -/
theorem ldImemVxEffect_stores (x : Nibble) (s u : State) (h : ldImemVxEffect x s = .ok u) :
    0x050 ≤ s.dataAddr ∧ s.dataAddr + x.toNat ≤ 0xFFF ∧
    ∀ k : Nibble, k.toNat ≤ x.toNat → u.byte (s.dataAddr + k.toNat) = s.reg k := by
  obtain ⟨hlow, hend, rfl⟩ := s.memWrite_inv u _ _ h
  rw [State.regsUpTo_length] at hend
  refine ⟨hlow, hend, fun k hk => ?_⟩
  rw [s.byte_writeBytes_inside s.dataAddr k.toNat _ hlow (by rw [State.regsUpTo_length]; omega),
    State.regsUpTo_getElem, BitVec.ofNat_toNat, BitVec.setWidth_eq]

/-- The same of the whole cycle of `Fx55`, where it latched no fault. -/
theorem exec_ldImemVx_stores (x : Nibble) (s t : State) (h : exec (.ldImemVx x) s = .next t) (ht : t.fault = none) :
    0x050 ≤ s.dataAddr ∧ s.dataAddr + x.toNat ≤ 0xFFF ∧
    ∀ k : Nibble, k.toNat ≤ x.toNat → t.byte (s.dataAddr + k.toNat) = s.reg k := by
  rcases exec_cases _ s t h with ⟨u, hu, rfl⟩ | ⟨c, _, rfl⟩
  · exact ldImemVxEffect_stores x (s.latchAndAdvance _) u hu
  · exact absurd ht (by simp)

end Sys2Proof.Machine

namespace Sys2Proof.Claims

open Sys2Proof.Machine

/-- Settles O19: the ROM reads as the parameter `GLYPH_ROM`, which no move changes. -/
theorem glyphRomNeverAltered : Obligations.GlyphRomNeverAltered :=
  fun m s a ha => s.byte_rom_congr (applyMove m s) (applyMove_params m s) a ha

/-- Settles O28: the one check decides, and `State.bytes` is what is read. -/
theorem memReadPrimitive : Obligations.MemReadPrimitive := by
  refine fun s addr n => ⟨fun h0 h => s.memRead_fault addr n h0 (by omega), ?_, fun h => ?_⟩
  · rintro rfl
    exact s.memRead_ok addr 0 (.inl rfl)
  · exact ⟨s.bytes addr n, s.memRead_ok addr n (by omega), s.bytes_length addr n, s.bytes_getElem? addr n⟩

/-- Settles O29: the two checks in their order, then the run of writes. -/
theorem memWritePrimitive : Obligations.MemWritePrimitive := by
  refine fun s addr bytes hlen => ⟨fun h => s.memWrite_outOfRange addr bytes (by omega),
    s.memWrite_glyphRom_of_inRange addr bytes, fun hend hlow => ?_⟩
  exact ⟨_, s.memWrite_ok addr bytes hlow (by omega), fun k hk => s.byte_writeBytes_inside addr k bytes hlow hk,
    fun a ha => s.byte_writeBytes_outside addr a bytes hlow ha, rfl, Memory.writeBytes_wf bytes s.mem addr⟩

/-- Settles O31: the fetch reads the RAM that `Fx55` left, which holds register `k` at `I + k`. -/
theorem storeSeenByNextFetch : Obligations.StoreSeenByNextFetch := by
  intro s t u x k _ h ht hmem hk hpc
  obtain ⟨hlow, hend, hstored⟩ := exec_ldImemVx_stores x s t h ht
  have hnext : (k + 1).toNat = k.toNat + 1 := by have := x.isLt; bv_omega
  have hhi : u.byte u.pc.toNat = s.reg k := by
    rw [t.byte_ram_congr u hmem _ (by omega), hpc, hstored k (by omega)]
  have hlo : u.byte (u.pc.toNat + 1) = s.reg (k + 1) := by
    rw [t.byte_ram_congr u hmem _ (by omega), hpc, Nat.add_assoc, ← hnext, hstored (k + 1) (by omega)]
  rw [u.fetch_ok (by omega), hhi, hlo]

end Sys2Proof.Claims

/-!
Decode and encode (R50 to R59): the two round trips, the opcode map of R56, the no-op words of R58, the ignored bits of
R57, and that every word runs: obligations O1 to O6 and O14.
-/

namespace Sys2Proof

/-! ### The secondary dispatches -/

/-- A selector that is not registered falls through to the no-op, which keeps every bit of the word (R55, R58). -/
theorem decode0_unregistered (w : Word) (h : fieldN w ∉ registered0) :
    decode0 w = .nopS4 (fieldMid w) (fieldN w) := by
  unfold decode0
  split <;> simp_all [registered0]

theorem decode8_unregistered (w : Word) (h : fieldN w ∉ registered8) :
    decode8 w = .nopXys (fieldX w) (fieldY w) (fieldN w) := by
  unfold decode8
  split <;> simp_all [registered8]

theorem decodeE_unregistered (w : Word) (h : fieldN w ∉ registeredE) :
    decodeE w = .nopXs4 (fieldX w) (fieldY w) (fieldN w) := by
  unfold decodeE
  split <;> simp_all [registeredE]

theorem decodeF_unregistered (w : Word) (h : fieldKk w ∉ registeredF) :
    decodeF w = .nopXs8 (fieldX w) (fieldKk w) := by
  unfold decodeF
  split <;> simp_all [registeredF]

/-- A secondary dispatch answers the no-op exactly for the selectors that are not registered (R58). -/
theorem decode0_op_nop_iff (w : Word) : (decode0 w).op = .nop ↔ fieldN w ∉ registered0 := by
  refine ⟨fun h => ?_, fun h => by rw [decode0_unregistered w h]; rfl⟩
  unfold decode0 at h
  split at h <;> simp_all [registered0, Instr.op]

theorem decode8_op_nop_iff (w : Word) : (decode8 w).op = .nop ↔ fieldN w ∉ registered8 := by
  refine ⟨fun h => ?_, fun h => by rw [decode8_unregistered w h]; rfl⟩
  unfold decode8 at h
  split at h <;> simp_all [registered8, Instr.op]

theorem decodeE_op_nop_iff (w : Word) : (decodeE w).op = .nop ↔ fieldN w ∉ registeredE := by
  refine ⟨fun h => ?_, fun h => by rw [decodeE_unregistered w h]; rfl⟩
  unfold decodeE at h
  split at h <;> simp_all [registeredE, Instr.op]

theorem decodeF_op_nop_iff (w : Word) : (decodeF w).op = .nop ↔ fieldKk w ∉ registeredF := by
  refine ⟨fun h => ?_, fun h => by rw [decodeF_unregistered w h]; rfl⟩
  unfold decodeF at h
  split at h <;> simp_all [registeredF, Instr.op]

/-! ### Encoding what a dispatch answered -/

/-- The word laid out again from its fields, where the family and the selector are known. -/
theorem word_eq_mid_of {w : Word} {f n : Nibble} (hf : family w = f) (hn : fieldN w = n) :
    f ++ fieldMid w ++ n = w := by
  subst hf hn; exact word_eq_mid w

theorem word_eq_xyn_of {w : Word} {f n : Nibble} (hf : family w = f) (hn : fieldN w = n) :
    f ++ fieldX w ++ fieldY w ++ n = w := by
  subst hf hn; exact word_eq_xyn w

theorem word_eq_xkk_of {w : Word} {f : Nibble} {kk : Byte} (hf : family w = f) (hkk : fieldKk w = kk) :
    f ++ fieldX w ++ kk = w := by
  subst hf hkk; exact word_eq_xkk w

theorem word_eq_nnn_of {w : Word} {f : Nibble} (hf : family w = f) : f ++ fieldNnn w = w := by
  subst hf; exact word_eq_nnn w

theorem encode_decode0 (w : Word) (hf : family w = 0x0#4) : encode (decode0 w) = w := by
  unfold decode0
  split <;> exact word_eq_mid_of hf (by simp only [*])

theorem encode_decode8 (w : Word) (hf : family w = 0x8#4) : encode (decode8 w) = w := by
  unfold decode8
  split <;> exact word_eq_xyn_of hf (by simp only [*])

theorem encode_decodeE (w : Word) (hf : family w = 0xE#4) : encode (decodeE w) = w := by
  unfold decodeE
  split <;> exact word_eq_xyn_of hf (by simp only [*])

theorem encode_decodeF (w : Word) (hf : family w = 0xF#4) : encode (decodeF w) = w := by
  unfold decodeF
  split <;> exact word_eq_xkk_of hf (by simp only [*])

/-! ### Well-formedness -/

@[simp] theorem Instr.wellFormed_nopS4 (ign : Byte) (sel : Nibble) :
    (Instr.nopS4 ign sel).WellFormed ↔ sel ∉ registered0 := by
  simp [Instr.WellFormed, Instr.wf]

@[simp] theorem Instr.wellFormed_nopXys (x y sel : Nibble) :
    (Instr.nopXys x y sel).WellFormed ↔ sel ∉ registered8 := by
  simp [Instr.WellFormed, Instr.wf]

@[simp] theorem Instr.wellFormed_nopXs4 (x ign sel : Nibble) :
    (Instr.nopXs4 x ign sel).WellFormed ↔ sel ∉ registeredE := by
  simp [Instr.WellFormed, Instr.wf]

@[simp] theorem Instr.wellFormed_nopXs8 (x : Nibble) (sel : Byte) :
    (Instr.nopXs8 x sel).WellFormed ↔ sel ∉ registeredF := by
  simp [Instr.WellFormed, Instr.wf]

/-- Only a no-op can be malformed: every operand field takes every value (R52). -/
theorem Instr.wellFormed_of_op_ne_nop (i : Instr) (h : i.op ≠ .nop) : i.WellFormed := by
  cases i
  case nopS4 | nopXys | nopXs4 | nopXs8 => exact absurd rfl h
  all_goals rfl

/-! ### The primary dispatch -/

theorem decodeWord_family0 (w : Word) (hf : family w = 0x0#4) : decodeWord w = decode0 w := by
  simp only [decodeWord, hf]

theorem decodeWord_family8 (w : Word) (hf : family w = 0x8#4) : decodeWord w = decode8 w := by
  simp only [decodeWord, hf]

theorem decodeWord_familyE (w : Word) (hf : family w = 0xE#4) : decodeWord w = decodeE w := by
  simp only [decodeWord, hf]

theorem decodeWord_familyF (w : Word) (hf : family w = 0xF#4) : decodeWord w = decodeF w := by
  simp only [decodeWord, hf]; rfl

/-- The last arm of the primary dispatch is family F. -/
theorem nibble_eq_F_of_not_mem (f : Nibble) :
    f ∉ [0x0#4, 0x1#4, 0x2#4, 0x3#4, 0x4#4, 0x5#4, 0x6#4, 0x7#4, 0x8#4, 0x9#4, 0xA#4, 0xB#4, 0xC#4, 0xD#4, 0xE#4] →
    f = 0xF#4 := by
  revert f; decide

/-- The no-op words by family and selector (R58). -/
theorem decodeWord_op_nop_iff (w : Word) : (decodeWord w).op = .nop ↔
    (family w = 0x0#4 ∧ fieldN w ∉ registered0) ∨ (family w = 0x8#4 ∧ fieldN w ∉ registered8) ∨
    (family w = 0xE#4 ∧ fieldN w ∉ registeredE) ∨ (family w = 0xF#4 ∧ fieldKk w ∉ registeredF) := by
  rw [← decode0_op_nop_iff, ← decode8_op_nop_iff, ← decodeE_op_nop_iff, ← decodeF_op_nop_iff]
  unfold decodeWord
  split
  case h_16 =>
    have hf : family w = 0xF#4 := nibble_eq_F_of_not_mem _ (by simp_all)
    simp [hf]
  all_goals simp [*, Instr.op]

/-! ### The round trips -/

/-- Every word decodes to an instruction the hardware has: an operation, or a no-op whose selector is not registered. -/
theorem decodeWord_wellFormed (w : Word) : (decodeWord w).WellFormed := by
  by_cases h : (decodeWord w).op = .nop
  · rcases (decodeWord_op_nop_iff w).1 h with ⟨hf, hs⟩ | ⟨hf, hs⟩ | ⟨hf, hs⟩ | ⟨hf, hs⟩
    · simp [decodeWord_family0 w hf, decode0_unregistered w hs, hs]
    · simp [decodeWord_family8 w hf, decode8_unregistered w hs, hs]
    · simp [decodeWord_familyE w hf, decodeE_unregistered w hs, hs]
    · simp [decodeWord_familyF w hf, decodeF_unregistered w hs, hs]
  · exact Instr.wellFormed_of_op_ne_nop _ h

/-- Each family lays out again the fields it read. -/
theorem encode_decodeWord (w : Word) : encode (decodeWord w) = w := by
  unfold decodeWord
  split
  case h_1 hf => exact encode_decode0 w hf
  case h_9 hf => exact encode_decode8 w hf
  case h_15 hf => exact encode_decodeE w hf
  case h_16 => exact encode_decodeF w (nibble_eq_F_of_not_mem _ (by simp_all))
  case h_2 hf | h_3 hf | h_11 hf | h_12 hf => exact word_eq_nnn_of hf
  case h_4 hf | h_5 hf | h_7 hf | h_8 hf | h_13 hf => exact word_eq_xkk_of hf rfl
  case h_6 hf | h_10 hf | h_14 hf => exact word_eq_xyn_of hf rfl

/-- Decode reads back the fields a constructor laid out; a selector that is not registered falls through (R55, R58). -/
theorem decodeWord_encode (i : Instr) (h : i.WellFormed) : decodeWord (encode i) = i := by
  cases i
  case nopS4 ign sel =>
    have hs : sel ∉ registered0 := (Instr.wellFormed_nopS4 ign sel).1 h
    simp [encode, decodeWord_family0, decode0_unregistered, hs]
  case nopXys x y sel =>
    have hs : sel ∉ registered8 := (Instr.wellFormed_nopXys x y sel).1 h
    simp [encode, decodeWord_family8, decode8_unregistered, hs]
  case nopXs4 x ign sel =>
    have hs : sel ∉ registeredE := (Instr.wellFormed_nopXs4 x ign sel).1 h
    simp [encode, decodeWord_familyE, decodeE_unregistered, hs]
  case nopXs8 x sel =>
    have hs : sel ∉ registeredF := (Instr.wellFormed_nopXs8 x sel).1 h
    simp [encode, decodeWord_familyF, decodeF_unregistered, hs]
  all_goals simp [encode, decodeWord, decode0, decode8, decodeE, decodeF]

theorem decode_encodeBytes (i : Instr) (rest : List Byte) :
    decode (encodeBytes i ++ rest) = .ok (decodeWord (encode i), rest) := by
  simp [encodeBytes, decode]

/-! ### The opcode map -/

open Laws in
/-- The word of every instruction lies under its row (R56, R62): one law per constructor. -/
theorem encode_and_mask (i : Instr) : encode i &&& (rowOf i).1 = (rowOf i).2 := by
  change UnderRow.Statement i
  cases i <;> simp only [UnderRow.cls, UnderRow.ret, UnderRow.jp, UnderRow.call, UnderRow.seVxKk, UnderRow.sneVxKk,
    UnderRow.seVxVy, UnderRow.ldVxKk, UnderRow.addVxKk, UnderRow.ldVxVy, UnderRow.or, UnderRow.and, UnderRow.xor,
    UnderRow.addVxVy, UnderRow.sub, UnderRow.shr, UnderRow.subn, UnderRow.shl, UnderRow.sneVxVy, UnderRow.ldINnn,
    UnderRow.jpV0, UnderRow.rnd, UnderRow.drw, UnderRow.skp, UnderRow.sknp, UnderRow.ldVxDt, UnderRow.ldVxK,
    UnderRow.ldDtVx, UnderRow.ldStVx, UnderRow.addIVx, UnderRow.ldFVx, UnderRow.ldBVx, UnderRow.ldImemVx,
    UnderRow.ldVxImem, UnderRow.nopS4, UnderRow.nopXys, UnderRow.nopXs4, UnderRow.nopXs8]

/-- An instruction that is no no-op has its row in the map. -/
theorem rowOf_mem_opcodeMap (i : Instr) (h : i.op ≠ .nop) : ⟨i.op, (rowOf i).1, (rowOf i).2⟩ ∈ opcodeMap := by
  cases i
  case nopS4 | nopXys | nopXs4 | nopXs8 => exact absurd rfl h
  all_goals simp [opcodeMap, rowOf, Instr.op]

/-- Two rows differ in a bit that both masks examine. -/
theorem opcodeMap_pairwise_differ : ∀ row ∈ opcodeMap, ∀ row' ∈ opcodeMap, row ≠ row' →
    row.pattern &&& row'.mask ≠ row'.pattern &&& row.mask := by
  decide

/-- A word under two rows agrees with both on the bits that both examine. -/
theorem pattern_and_mask_comm {w m p m' p' : Word} (h : w &&& m = p) (h' : w &&& m' = p') : p &&& m' = p' &&& m := by
  rw [← h, ← h', BitVec.and_assoc, BitVec.and_assoc, BitVec.and_comm m]

theorem opcodeMap_op_ne_nop : ∀ row ∈ opcodeMap, row.op ≠ .nop := by decide

/-- One operation has one row. -/
theorem opcodeMap_op_injective : ∀ row ∈ opcodeMap, ∀ row' ∈ opcodeMap, row.op = row'.op → row = row' := by decide

/-- The operation a secondary dispatch selects depends on the selector alone (R55). -/
theorem decode0_op_congr (v w : Word) (h : fieldN v = fieldN w) : (decode0 v).op = (decode0 w).op := by
  unfold decode0
  rw [h]
  split <;> rfl

theorem decode8_op_congr (v w : Word) (h : fieldN v = fieldN w) : (decode8 v).op = (decode8 w).op := by
  unfold decode8
  rw [h]
  split <;> rfl

theorem decodeE_op_congr (v w : Word) (h : fieldN v = fieldN w) : (decodeE v).op = (decodeE w).op := by
  unfold decodeE
  rw [h]
  split <;> rfl

theorem decodeF_op_congr (v w : Word) (h : fieldKk v = fieldKk w) : (decodeF v).op = (decodeF w).op := by
  unfold decodeF
  rw [h]
  split <;> rfl

/-- The operation a word selects depends on its family and, in families 0, 8, E and F, on the selector (R55, R57). -/
theorem decodeWord_op_congr (v w : Word) (hf : family v = family w)
    (hn : family w ∈ [0x0#4, 0x8#4, 0xE#4] → fieldN v = fieldN w)
    (hkk : family w = 0xF#4 → fieldKk v = fieldKk w) : (decodeWord v).op = (decodeWord w).op := by
  unfold decodeWord
  rw [hf]
  split
  case h_1 h => exact decode0_op_congr v w (hn (by simp [h]))
  case h_9 h => exact decode8_op_congr v w (hn (by simp [h]))
  case h_15 h => exact decodeE_op_congr v w (hn (by simp [h]))
  case h_16 => exact decodeF_op_congr v w (hkk (nibble_eq_F_of_not_mem _ (by simp_all)))
  all_goals rfl

/-- The three masks of the map and their families: where a selector counts, the mask examines it (R54, R56). -/
theorem opcodeMap_masks : ∀ row ∈ opcodeMap,
    (row.mask = 0xF000 ∧ row.pattern = family row.pattern ++ 0x0#4 ++ 0x0#4 ++ 0x0#4 ∧
      family row.pattern ∉ [0x0#4, 0x8#4, 0xE#4] ∧ family row.pattern ≠ 0xF#4) ∨
    (row.mask = 0xF00F ∧ row.pattern = family row.pattern ++ 0x0#4 ++ 0x0#4 ++ fieldN row.pattern ∧
      family row.pattern ≠ 0xF#4) ∨
    (row.mask = 0xF0FF ∧ row.pattern = family row.pattern ++ 0x0#4 ++ fieldY row.pattern ++ fieldN row.pattern ∧
      family row.pattern ∉ [0x0#4, 0x8#4, 0xE#4]) := by
  decide

/-- The match of a row is itself a word of the row's operation. -/
theorem decodeWord_pattern_op : ∀ row ∈ opcodeMap, (decodeWord row.pattern).op = row.op := by decide

/-- A word under a row agrees with the row's match on everything that selects an operation. -/
theorem decodeWord_op_of_and_mask (row : OpcodeRow) (hrow : row ∈ opcodeMap) (w : Word)
    (h : w &&& row.mask = row.pattern) : (decodeWord w).op = row.op := by
  rw [← decodeWord_pattern_op row hrow]
  rcases opcodeMap_masks row hrow with ⟨hmask, hp, hlow, hF⟩ | ⟨hmask, hp, hF⟩ | ⟨hmask, hp, hlow⟩ <;> rw [hmask] at h
  · have hf : family w = family row.pattern := (mask_family w _ hp).1 h
    exact decodeWord_op_congr w _ hf (absurd · hlow) (absurd · hF)
  · obtain ⟨hf, hn⟩ := (mask_family_n w _ hp).1 h
    exact decodeWord_op_congr w _ hf (fun _ => hn) (absurd · hF)
  · obtain ⟨hf, hkk⟩ := (mask_family_kk w _ hp).1 h
    exact decodeWord_op_congr w _ hf (absurd · hlow) (fun _ => hkk)

/-- Every word lies under the row of the instruction it decodes to. -/
theorem and_mask_decodeWord (w : Word) : w &&& (rowOf (decodeWord w)).1 = (rowOf (decodeWord w)).2 := by
  have h := encode_and_mask (decodeWord w)
  rwa [encode_decodeWord] at h

/-- A word that selects an operation lies under that operation's row, which is the row of the instruction. -/
theorem and_mask_of_decodeWord_op (row : OpcodeRow) (hrow : row ∈ opcodeMap) (w : Word)
    (h : (decodeWord w).op = row.op) : w &&& row.mask = row.pattern := by
  have hown := rowOf_mem_opcodeMap (decodeWord w) (h ▸ opcodeMap_op_ne_nop row hrow)
  rw [← opcodeMap_op_injective _ hown row hrow h]
  exact and_mask_decodeWord w

/-- The instruction of the operation `op` with the operand and ignored fields of `w` (R54); for the no-op, whose fields
depend on the family, what decode gives. -/
def instrOf (op : Op) (w : Word) : Instr :=
  match op with
  | .cls => .cls (fieldMid w)
  | .ret => .ret (fieldMid w)
  | .jp => .jp (fieldNnn w)
  | .call => .call (fieldNnn w)
  | .seVxKk => .seVxKk (fieldX w) (fieldKk w)
  | .sneVxKk => .sneVxKk (fieldX w) (fieldKk w)
  | .seVxVy => .seVxVy (fieldX w) (fieldY w) (fieldN w)
  | .ldVxKk => .ldVxKk (fieldX w) (fieldKk w)
  | .addVxKk => .addVxKk (fieldX w) (fieldKk w)
  | .ldVxVy => .ldVxVy (fieldX w) (fieldY w)
  | .or => .or (fieldX w) (fieldY w)
  | .and => .and (fieldX w) (fieldY w)
  | .xor => .xor (fieldX w) (fieldY w)
  | .addVxVy => .addVxVy (fieldX w) (fieldY w)
  | .sub => .sub (fieldX w) (fieldY w)
  | .shr => .shr (fieldX w) (fieldY w)
  | .subn => .subn (fieldX w) (fieldY w)
  | .shl => .shl (fieldX w) (fieldY w)
  | .sneVxVy => .sneVxVy (fieldX w) (fieldY w) (fieldN w)
  | .ldINnn => .ldINnn (fieldNnn w)
  | .jpV0 => .jpV0 (fieldNnn w)
  | .rnd => .rnd (fieldX w) (fieldKk w)
  | .drw => .drw (fieldX w) (fieldY w) (fieldN w)
  | .skp => .skp (fieldX w) (fieldY w)
  | .sknp => .sknp (fieldX w) (fieldY w)
  | .ldVxDt => .ldVxDt (fieldX w)
  | .ldVxK => .ldVxK (fieldX w)
  | .ldDtVx => .ldDtVx (fieldX w)
  | .ldStVx => .ldStVx (fieldX w)
  | .addIVx => .addIVx (fieldX w)
  | .ldFVx => .ldFVx (fieldX w)
  | .ldBVx => .ldBVx (fieldX w)
  | .ldImemVx => .ldImemVx (fieldX w)
  | .ldVxImem => .ldVxImem (fieldX w)
  | .nop => decodeWord w

/-- The fields of an instruction's word are the instruction's own. -/
theorem instrOf_encode (i : Instr) (h : i.WellFormed) : instrOf i.op (encode i) = i := by
  cases i
  case nopS4 | nopXys | nopXs4 | nopXs8 => exact decodeWord_encode _ h
  all_goals simp [instrOf, Instr.op, encode]

theorem decodeWord_eq_instrOf (w : Word) : decodeWord w = instrOf (decodeWord w).op w := by
  have h := instrOf_encode (decodeWord w) (decodeWord_wellFormed w)
  rwa [encode_decodeWord, eq_comm] at h

end Sys2Proof

namespace Sys2Proof.Machine

open Sys2Proof.Claims

/-! ### The latched word and the execute step -/

/-- The state with the word `w` in the opcode latch. -/
def State.withOpcode (s : State) (w : Word) : State := { s with opcode := w }

@[simp] theorem State.withOpcode_reg (s : State) (w : Word) (x : Nibble) : (s.withOpcode w).reg x = s.reg x := rfl

/-- The execute step `e` answers the same whatever word is latched, but for that word. -/
def Effect.IgnoresOpcode (e : Effect) : Prop :=
  ∀ (s : State) (w : Word), e (s.withOpcode w) = (e s).map (·.withOpcode w)

theorem State.skipIf_withOpcode (s : State) (w : Word) (c : Bool) :
    (s.withOpcode w).skipIf c = (s.skipIf c).withOpcode w := by
  rw [State.skipIf_eq, State.skipIf_eq]; rfl

theorem retEffect_ignoresOpcode : Effect.IgnoresOpcode retEffect := by
  intro s w
  by_cases h : s.sp.val = 0
  · rw [retEffect_fault s h, retEffect_fault (s.withOpcode w) h]; rfl
  · rw [retEffect_ok s h, retEffect_ok (s.withOpcode w) h]; rfl

/-- The two key tests name the same key or fault alike, and then skip or not. -/
theorem skpEffect_sknpEffect_ignoreOpcode (x : Nibble) :
    Effect.IgnoresOpcode (skpEffect x) ∧ Effect.IgnoresOpcode (sknpEffect x) := by
  unfold Effect.IgnoresOpcode skpEffect sknpEffect
  refine ⟨fun s w => ?_, fun s w => ?_⟩ <;> rw [State.withOpcode_reg] <;> cases keyIndex (s.reg x)
  case refine_1.error | refine_2.error => rfl
  all_goals exact congrArg Except.ok (s.skipIf_withOpcode w _)

/-- A cycle whose execute step ignores the latched word runs alike for any two words, but for the word. -/
theorem State.runCycle_upToOpcode (s : State) (v w : Word) (e : Effect) (he : Effect.IgnoresOpcode e) :
    ∃ t u, s.runCycle v e = .next t ∧ s.runCycle w e = .next u ∧ upToOpcode t = upToOpcode u := by
  have hv : e (s.latchAndAdvance v) = (e (s.latchAndAdvance w)).map (·.withOpcode v) := he (s.latchAndAdvance w) v
  rcases s.runCycle_cases w e _ rfl with ⟨u, hu, hw⟩ | ⟨c, hc, hw⟩
  · rw [hu] at hv
    exact ⟨_, _, s.runCycle_ok _ v e hv, hw, rfl⟩
  · rw [hc] at hv
    exact ⟨_, _, s.runCycle_error v e c hv, hw, rfl⟩

theorem effectOf_canonical (i : Instr) : effectOf i.canonical = effectOf i := by
  cases i <;> rfl

/-- An instruction with bits that decode ignores has an execute step that does not read the latched word. -/
theorem effectOf_ignoresOpcode (i : Instr) (h : i.canonical ≠ i) : Effect.IgnoresOpcode (effectOf i) := by
  cases i
  case cls => exact fun _ _ => rfl
  case ret => exact retEffect_ignoresOpcode
  case seVxVy | sneVxVy => exact fun s w => congrArg Except.ok (s.skipIf_withOpcode w _)
  case skp x _ => exact (skpEffect_sknpEffect_ignoreOpcode x).1
  case sknp x _ => exact (skpEffect_sknpEffect_ignoreOpcode x).2
  all_goals exact absurd rfl h

/-! ### Every step answers a next state -/

theorem exec_next (i : Instr) (s : State) : ∃ t, exec i s = .next t := by
  rcases s.runCycle_cases (encode i) (effectOf i) _ rfl with ⟨u, _, h⟩ | ⟨c, _, h⟩
  · exact ⟨_, (exec_eq i s).trans h⟩
  · exact ⟨_, (exec_eq i s).trans h⟩

theorem cycle_next (s : State) : ∃ t, cycle s = .next t := by
  by_cases hf : s.fault = none
  · cases hw : s.fetch with
    | ok w => rw [cycle_fetched s w hf hw]; exact exec_next (decodeWord w) s
    | error c => exact ⟨_, cycle_fetchFault s c hf hw⟩
  · exact ⟨s, cycle_halted s hf⟩

end Sys2Proof.Machine

namespace Sys2Proof.Claims

open Sys2Proof.Machine

/-- What every statement about one operation says of its words (R56): those under its row decode to it, with their
fields as operands. -/
theorem selects_of_mem_opcodeMap {op : Op} {mask pattern : Word} (h : ⟨op, mask, pattern⟩ ∈ opcodeMap) :
    Selects mask pattern (instrOf op) := by
  intro w hw
  rw [decodeWord_eq_instrOf w, decodeWord_op_of_and_mask _ h w hw]

/-- Settles O1: each constructor's word has the fields it was laid out from, and a well-formed no-op's selector is not
registered. -/
theorem decodeOfEncode : Obligations.DecodeOfEncode := by
  intro i h
  have hword : decodeWord (encode i) = i := decodeWord_encode i h
  exact ⟨hword, fun rest => by rw [decode_encodeBytes, hword]⟩

/-- Settles O2, family by family. -/
theorem encodeOfDecode : Obligations.EncodeOfDecode :=
  fun w => ⟨decodeWord_wellFormed w, encode_decodeWord w⟩

/-- Settles O3: under a row a word has the row's operation, and the word of an operation lies under its row; two rows
differ where both look. -/
theorem opcodeMapSelects : Obligations.OpcodeMapSelects := by
  refine ⟨fun row hrow w => ⟨decodeWord_op_of_and_mask row hrow w, and_mask_of_decodeWord_op row hrow w⟩,
    fun row hrow row' hrow' hne w h h' => ?_, fun w => ⟨fun hnop row hrow h => ?_, fun hnone => ?_⟩⟩
  · exact opcodeMap_pairwise_differ row hrow row' hrow' hne (pattern_and_mask_comm h h')
  · exact opcodeMap_op_ne_nop row hrow ((decodeWord_op_of_and_mask row hrow w h).symm.trans hnop)
  · by_contra hop
    exact hnone _ (rowOf_mem_opcodeMap (decodeWord w) hop) (and_mask_decodeWord w)

/-- Settles O4 by `decodeWord_op_nop_iff`, with the registered selectors written out. -/
theorem nopWords : Obligations.NopWords := by
  have h0 : ∀ n : Nibble, n ∉ registered0 ↔ n ≠ 0x0 ∧ n ≠ 0xE := by decide
  have h8 : ∀ n : Nibble, n ∉ registered8 ↔ 0x8 ≤ n.toNat ∧ n ≠ 0xE := by decide
  have hE : ∀ n : Nibble, n ∉ registeredE ↔ n ≠ 0x1 ∧ n ≠ 0xE := by decide
  intro w
  rw [decodeWord_op_nop_iff, h0, h8, hE]
  rfl

/-- Settles O5: an instruction has its canonical form's execute step, which does not read the latched word. -/
theorem aliasActsAsCanonical : Obligations.AliasActsAsCanonical := by
  intro i s
  by_cases h : i.canonical = i
  · obtain ⟨t, ht⟩ := exec_next i s
    exact ⟨t, t, ht, by rwa [h], rfl⟩
  · rw [exec_eq, exec_eq, effectOf_canonical]
    exact s.runCycle_upToOpcode _ _ _ (effectOf_ignoresOpcode i h)

/-- Settles O6 by evaluation. -/
theorem sampleWordsDecode : Obligations.SampleWordsDecode := by
  unfold Obligations.SampleWordsDecode
  decide

/-- Settles O14: no arm of `exec` refuses, and a fault of the fetch or of an operation is latched in a next state. -/
theorem everyStepAnswersNext : Obligations.EveryStepAnswersNext :=
  ⟨fun s => cycle_next s.takeKeys, exec_next⟩

end Sys2Proof.Claims

/-!
The cycle and its dispatch (R70 to R78, R102): what the fetch reads and latches, the timer step, what a cycle depends on
besides the state, and the no-op: obligations O7, O8, O12, O15 and O59.
-/

namespace Sys2Proof.Machine

open Sys2Proof.Claims

/-! ### What a cycle does before and after the execute step -/

theorem State.bytes_two (s : State) (a : Nat) : s.bytes a 2 = [s.byte a, s.byte (a + 1)] := rfl

/-- Two bytes decode to the instruction of their big-endian word, and none is left over (R50). -/
theorem decode_pair_inv (hi lo : Byte) (i : Instr) (rest : List Byte) (h : decode [hi, lo] = .ok (i, rest)) :
    i = decodeWord (wordOfBytes hi lo) ∧ rest = [] := by
  cases h
  exact ⟨rfl, rfl⟩

/-- The step is the cycle of the word at `pc`, after the host's next keypad write. -/
theorem step_fetched (s : State) (w : Word) (h : s.fault = none) (hw : s.fetch = .ok w) :
    step s = exec (decodeWord w) s.takeKeys :=
  cycle_fetched s.takeKeys w (s.takeKeys_fault.trans h) (s.takeKeys_fetch.trans hw)

/-- The host's next keypad write is the head of the writes to come; with none to come the flags stand. -/
theorem State.takeKeys_eq (s : State) :
    s.takeKeys = { s with keypad := s.keyInput.headD s.keypad, keyInput := s.keyInput.tail } := by
  cases hq : s.keyInput with
  | nil => exact (s.takeKeys_nil hq).trans (congrArg (fun q => { s with keyInput := q }) hq)
  | cons k rest => exact s.takeKeys_cons k rest hq

/-- A cycle that completes has latched the word of its instruction (R71, R21). -/
theorem exec_opcode (i : Instr) (s t : State) (h : exec i s = .next t) (ht : t.fault = none) : t.opcode = encode i := by
  rcases exec_cases i s t h with ⟨u, hu, rfl⟩ | ⟨c, _, rfl⟩
  · obtain ⟨hopcode, _⟩ := effectOf_frame i _ u hu
    exact hopcode
  · exact absurd ht (by simp)

/-! ### The timers -/

/-- DT as the execute step of `i` leaves it: `Fx15` writes it, no other operation does (R75, R124). -/
def dtLeftBy (i : Instr) (s : State) : Byte :=
  match i with
  | .ldDtVx x => s.reg x
  | _ => s.dt

/-- ST as the execute step of `i` leaves it: `Fx18` writes it, no other operation does (R75, R125). -/
def stLeftBy (i : Instr) (s : State) : Byte :=
  match i with
  | .ldStVx x => s.reg x
  | _ => s.st

/-- The latch and the advance before the execute step touch no timer and no register. -/
@[simp] theorem dtLeftBy_latchAndAdvance (i : Instr) (s : State) (w : Word) :
    dtLeftBy i (s.latchAndAdvance w) = dtLeftBy i s := by
  cases i <;> rfl

@[simp] theorem stLeftBy_latchAndAdvance (i : Instr) (s : State) (w : Word) :
    stLeftBy i (s.latchAndAdvance w) = stLeftBy i s := by
  cases i <;> rfl

theorem effectOf_timers (i : Instr) (s u : State) (h : effectOf i s = .ok u) :
    u.dt = dtLeftBy i s ∧ u.st = stLeftBy i s := by
  cases i <;> simp only [effectOf] at h
  case ret => obtain ⟨_, rfl⟩ := retEffect_inv _ _ h; exact ⟨rfl, rfl⟩
  case call => obtain ⟨_, rfl⟩ := callEffect_inv _ _ _ h; exact ⟨rfl, rfl⟩
  case skp => obtain ⟨_, rfl⟩ := skpEffect_inv _ _ _ h; rw [State.skipIf_eq]; exact ⟨rfl, rfl⟩
  case sknp => obtain ⟨_, rfl⟩ := sknpEffect_inv _ _ _ h; rw [State.skipIf_eq]; exact ⟨rfl, rfl⟩
  case ldVxK => rcases ldVxKEffect_inv _ _ _ h with ⟨_, rfl⟩ | ⟨_, _, rfl⟩ <;> exact ⟨rfl, rfl⟩
  case ldVxImem => obtain ⟨_, rfl⟩ := ldVxImemEffect_inv _ _ _ h; exact ⟨rfl, rfl⟩
  case drw => obtain ⟨_, rfl⟩ := drwEffect_inv _ _ _ _ _ h; exact ⟨rfl, rfl⟩
  case ldBVx | ldImemVx => obtain ⟨_, _, rfl⟩ := State.memWrite_inv _ _ _ _ h; exact ⟨rfl, rfl⟩
  case seVxKk | sneVxKk | seVxVy | sneVxVy => cases h; rw [State.skipIf_eq]; exact ⟨rfl, rfl⟩
  all_goals cases h; exact ⟨rfl, rfl⟩

/-- Each timer ends one below what the execute step left in it, floored at 0 (R75). -/
theorem exec_timers (i : Instr) (s t : State) (h : exec i s = .next t) (ht : t.fault = none) :
    t.dt.toNat = (dtLeftBy i s).toNat - 1 ∧ t.st.toNat = (stLeftBy i s).toNat - 1 := by
  rcases exec_cases i s t h with ⟨u, hu, rfl⟩ | ⟨c, _, rfl⟩
  · obtain ⟨hdt, hst⟩ := effectOf_timers i _ u hu
    simp [tick_toNat, hdt, hst]
  · exact absurd ht (by simp)

/-- A cycle that ends with a fault it did not start with has moved no timer (R132). -/
theorem exec_timers_of_fault (i : Instr) (s t : State) (hs : s.fault = none) (h : exec i s = .next t)
    (ht : t.fault ≠ none) : t.dt = s.dt ∧ t.st = s.st := by
  rcases exec_cases i s t h with ⟨u, hu, rfl⟩ | ⟨c, _, rfl⟩
  · obtain ⟨_, hfault, _⟩ := effectOf_frame i _ u hu
    exact absurd (hfault.trans hs) ht
  · exact ⟨rfl, rfl⟩

/-! ### The inputs: keypad flags, count of random bytes, keypad writes to come -/

/-- The state with other inputs: each of the three replaced by its image, so that `id` leaves one as it is. -/
def State.mapInputs (s : State) (k : BitVec 16 → BitVec 16) (d : Nat → Nat)
    (q : List (BitVec 16) → List (BitVec 16)) : State :=
  { s with keypad := k s.keypad, rndDraws := d s.rndDraws, keyInput := q s.keyInput }

section

variable (s : State) (k : BitVec 16 → BitVec 16) (d : Nat → Nat) (q : List (BitVec 16) → List (BitVec 16))

@[simp] theorem State.mapInputs_reg (x : Nibble) : (s.mapInputs k d q).reg x = s.reg x := rfl
@[simp] theorem State.mapInputs_dataAddr : (s.mapInputs k d q).dataAddr = s.dataAddr := rfl

@[simp] theorem State.mapInputs_memRead (addr n : Nat) : (s.mapInputs k d q).memRead addr n = s.memRead addr n := rfl

theorem State.mapInputs_skipIf (c : Bool) : (s.mapInputs k d q).skipIf c = (s.skipIf c).mapInputs k d q := by
  rw [State.skipIf_eq, State.skipIf_eq]; rfl

theorem State.mapInputs_memWrite (addr : Nat) (bytes : List Byte) :
    (s.mapInputs k d q).memWrite addr bytes = (s.memWrite addr bytes).map (·.mapInputs k d q) := by
  unfold State.memWrite
  split
  · rfl
  · split <;> rfl

/-- The execute step `e` from `s` passes the change of inputs through: the same fault, or the same next state but for
that change. -/
def Effect.PassesInputs (e : Effect) : Prop :=
  e (s.mapInputs k d q) = (e s).map (·.mapInputs k d q)

theorem retEffect_passesInputs : Effect.PassesInputs s k d q retEffect := by
  by_cases h : s.sp.val = 0
  · rw [Effect.PassesInputs, retEffect_fault s h, retEffect_fault (s.mapInputs k d q) h]; rfl
  · rw [Effect.PassesInputs, retEffect_ok s h, retEffect_ok (s.mapInputs k d q) h]; rfl

theorem callEffect_passesInputs (nnn : Addr12) : Effect.PassesInputs s k d q (callEffect nnn) := by
  by_cases h : s.sp.val < 16
  · rw [Effect.PassesInputs, callEffect_ok nnn s h, callEffect_ok nnn (s.mapInputs k d q) h]; rfl
  · have hfull : s.sp.val = 16 := by have := s.sp.isLt; omega
    rw [Effect.PassesInputs, callEffect_fault nnn s hfull, callEffect_fault nnn (s.mapInputs k d q) hfull]; rfl

theorem drwEffect_passesInputs (x y n : Nibble) : Effect.PassesInputs s k d q (drwEffect x y n) := by
  unfold Effect.PassesInputs drwEffect
  rw [State.mapInputs_memRead, State.mapInputs_dataAddr]
  cases s.memRead s.dataAddr n.toNat <;> rfl

theorem ldVxImemEffect_passesInputs (x : Nibble) : Effect.PassesInputs s k d q (ldVxImemEffect x) := by
  unfold Effect.PassesInputs ldVxImemEffect
  rw [State.mapInputs_memRead, State.mapInputs_dataAddr]
  cases s.memRead s.dataAddr (x.toNat + 1) <;> rfl

/-- The key tests read the flags, and neither the count of random bytes nor the keypad writes to come. -/
theorem skpEffect_sknpEffect_passInputs (x : Nibble) :
    Effect.PassesInputs s id d q (skpEffect x) ∧ Effect.PassesInputs s id d q (sknpEffect x) := by
  unfold Effect.PassesInputs skpEffect sknpEffect
  rw [State.mapInputs_reg]
  cases keyIndex (s.reg x) with
  | error f => exact ⟨rfl, rfl⟩
  | ok key =>
    exact ⟨congrArg Except.ok (s.mapInputs_skipIf id d q _), congrArg Except.ok (s.mapInputs_skipIf id d q _)⟩

/-- So does the key wait. -/
theorem ldVxKEffect_passesInputs (x : Nibble) : Effect.PassesInputs s id d q (ldVxKEffect x) := by
  have hkey : (s.mapInputs id d q).lowestKey = s.lowestKey := rfl
  unfold Effect.PassesInputs ldVxKEffect
  rw [hkey]
  cases s.lowestKey <;> rfl

/-- A change of inputs passes through every execute step, where the keypad flags are kept for the three operations that
read them and the count of random bytes for the one that reads it (R78). -/
theorem effectOf_passesInputs (i : Instr) (hk : i.op ∈ [Op.skp, .sknp, .ldVxK] → k = id) (hd : i.op = .rnd → d = id) :
    Effect.PassesInputs s k d q (effectOf i) := by
  cases i
  case skp x _ => obtain rfl := hk (by simp [Instr.op]); exact (skpEffect_sknpEffect_passInputs s d q x).1
  case sknp x _ => obtain rfl := hk (by simp [Instr.op]); exact (skpEffect_sknpEffect_passInputs s d q x).2
  case ldVxK x => obtain rfl := hk (by simp [Instr.op]); exact ldVxKEffect_passesInputs s d q x
  case rnd => obtain rfl := hd rfl; rfl
  case ret => exact retEffect_passesInputs s k d q
  case call nnn => exact callEffect_passesInputs s k d q nnn
  case drw x y n => exact drwEffect_passesInputs s k d q x y n
  case ldVxImem x => exact ldVxImemEffect_passesInputs s k d q x
  case ldBVx | ldImemVx => exact s.mapInputs_memWrite k d q _ _
  case seVxKk | sneVxKk | seVxVy | sneVxVy => exact congrArg Except.ok (s.mapInputs_skipIf k d q _)
  all_goals rfl

/-- The same of the whole cycle after the fetch. -/
theorem exec_mapInputs (i : Instr) (t : State) (hk : i.op ∈ [Op.skp, .sknp, .ldVxK] → k = id)
    (hd : i.op = .rnd → d = id) (h : exec i s = .next t) :
    exec i (s.mapInputs k d q) = .next (t.mapInputs k d q) := by
  have hpass := effectOf_passesInputs (s.latchAndAdvance (encode i)) k d q i hk hd
  rw [exec_eq]
  rcases exec_cases i s t h with ⟨u, hu, rfl⟩ | ⟨c, hc, rfl⟩
  · exact State.runCycle_ok _ (u.mapInputs k d q) _ _ (hpass.trans (by rw [hu]; rfl))
  · exact State.runCycle_error _ _ _ c (hpass.trans (by rw [hc]; rfl))

end

/-! ### The no-op -/

/-- A no-op's execute step completes and changes nothing (R76). -/
theorem effectOf_nop (i : Instr) (hi : i.op = .nop) (s : State) : effectOf i s = .ok s := by
  cases i <;> cases hi <;> rfl

/-- The cycle of a no-op completes; opcode latch, `pc` and timers move and nothing else (R76, R102). -/
theorem exec_nop (i : Instr) (hi : i.op = .nop) (s : State) :
    ∃ t, exec i s = .next t ∧ RegsKept s t ∧ RegisterFrame i s t := by
  have hcycle : exec i s = .next (s.latchAndAdvance (encode i)).tickTimers :=
    (exec_eq i s).trans (s.runCycle_ok _ _ _ (effectOf_nop i hi _))
  have hticked : TimersTicked s (s.latchAndAdvance (encode i)).tickTimers := ⟨tick_toNat s.dt, tick_toNat s.st⟩
  exact ⟨_, hcycle, fun _ => rfl, ⟨rfl, rfl, rfl, rfl, rfl⟩, hticked, rfl, rfl, ⟨rfl, rfl⟩, fun _ => rfl,
    fun _ _ => rfl, rfl⟩

end Sys2Proof.Machine

namespace Sys2Proof.Claims

open Sys2Proof.Machine

/-- Settles O7: the word of the two bytes at `pc` is the word fetched, before the host's keypad write as after it. -/
theorem stepRunsDecodedInstruction : Obligations.StepRunsDecodedInstruction := by
  intro s i rest hfault hpc h
  rw [State.bytes_two] at h
  obtain ⟨rfl, rfl⟩ := decode_pair_inv _ _ _ _ h
  have hfetch := s.fetch_ok hpc
  exact ⟨decodeWord_wellFormed _, rfl, cycle_fetched s _ hfault hfetch, step_fetched s _ hfault hfetch, s.takeKeys_eq⟩

/-- Settles O8: a completing cycle latches the word its instruction was decoded from, which encodes back to itself. -/
theorem fetchReadsBigEndianWord : Obligations.FetchReadsBigEndianWord := by
  refine ⟨fun s hpc => ⟨_, s.fetch_ok hpc, hiByte_wordOfBytes _ _, loByte_wordOfBytes _ _, fun hfault t h ht => ?_⟩,
    fun s hfault hpc => cycle_fetchFault s _ hfault (s.fetch_fault hpc)⟩
  rw [cycle_fetched s _ hfault (s.fetch_ok hpc)] at h
  rw [exec_opcode _ s t h ht, encode_decodeWord]

/-- Settles O12: the tick acts on what the execute step left; a faulting cycle commits no tick. -/
theorem timersTickAfterExecute : Obligations.TimersTickAfterExecute := by
  intro s t w hfault hfetch h
  rw [cycle_fetched s w hfault hfetch] at h
  exact ⟨exec_timers (decodeWord w) s t h, exec_timers_of_fault (decodeWord w) s t hfault h⟩

/-- Settles O15: three changes of inputs, each of one input alone. -/
theorem inputsMatterOnlyWhereRead : Obligations.InputsMatterOnlyWhereRead := by
  refine fun i s t h => ⟨fun hi k => ?_, fun hi d => ?_, fun q => ?_⟩
  · exact exec_mapInputs s (fun _ => k) id id i t (fun e => absurd e hi) (fun _ => rfl) h
  · exact exec_mapInputs s id (fun _ => d) id i t (fun _ => rfl) (fun e => absurd e hi) h
  · exact exec_mapInputs s id id (fun _ => q) i t (fun _ => rfl) (fun _ => rfl) h

/-- Settles O59: the four kinds of no-op word are the four constructors whose operation is the no-op. -/
theorem nopMovesOnlyTheCycle : Obligations.NopMovesOnlyTheCycle :=
  ⟨fun _ _ => exec_nop _ rfl, fun _ _ _ => exec_nop _ rfl, fun _ _ _ => exec_nop _ rfl, fun _ _ => exec_nop _ rfl⟩

end Sys2Proof.Claims

/-!
Control transfer (R80 to R89): return, jump, call, the four register skips and the indexed jump: obligations O33 to O39.
-/

namespace Sys2Proof.Machine

open Sys2Proof.Claims

/-! ### A cycle that transfers control, a cycle that faults -/

/-- A cycle whose execute step moves `pc`, the stack entries and `sp` alone completes within the frame of a call. -/
theorem exec_transfer (i : Instr) (s : State) (a : Word) (stack : Vector Word 16) (sp : Fin 17)
    (h : effectOf i (s.latchAndAdvance (encode i)) =
      .ok { s.latchAndAdvance (encode i) with pc := a, stack := stack, sp := sp }) :
    ∃ t, exec i s = .next t ∧ t.pc = a ∧ t.stack = stack ∧ t.sp = sp ∧ CallFrame i s t := by
  have hcycle := (exec_eq i s).trans (s.runCycle_ok _ _ _ h)
  exact ⟨_, hcycle, rfl, rfl, rfl, ⟨rfl, rfl, rfl, rfl, rfl⟩, ⟨tick_toNat s.dt, tick_toNat s.st⟩, fun _ => rfl, rfl,
    fun _ => rfl, fun _ _ => rfl, rfl⟩

/-- A cycle whose execute step sets `pc` alone completes within the frame of a jump. -/
theorem exec_jump (i : Instr) (s : State) (a : Word)
    (h : effectOf i (s.latchAndAdvance (encode i)) = .ok ((s.latchAndAdvance (encode i)).setPc a)) :
    ∃ t, exec i s = .next t ∧ t.pc = a ∧ JumpFrame i s t := by
  obtain ⟨t, ht, hpc, hstack, hsp, hcompleted, htimers, hregs, hindex, hrest⟩ :=
    exec_transfer i s a s.stack s.sp h
  exact ⟨t, ht, hpc, hcompleted, htimers, hregs, hindex, ⟨hsp, hstack⟩, hrest⟩

/-- A cycle whose execute step is a skip on `c` completes with `pc` advanced once more exactly where `c` holds. -/
theorem exec_skip (i : Instr) (s : State) (c : Prop) [Decidable c]
    (h : effectOf i (s.latchAndAdvance (encode i)) = .ok ((s.latchAndAdvance (encode i)).skipIf (decide c))) :
    ∃ t, exec i s = .next t ∧ t.pc = (if c then s.pc + 2 + 2 else s.pc + 2) ∧ JumpFrame i s t := by
  refine exec_jump i s _ (h.trans ?_)
  simp only [State.skipIf_eq, decide_eq_true_eq, State.latchAndAdvance_pc]
  rfl

/-- A fault of the execute step is the fault of the cycle, latched with the instruction's address and word (R132). -/
theorem faults_of_effectOf (i : Instr) (s : State) (c : Fault)
    (h : effectOf i (s.latchAndAdvance (encode i)) = .error c) : Faults i s c :=
  (exec_eq i s).trans (s.runCycle_error _ _ c h)

/-! ### Call and return -/

theorem exec_ret (ign : Byte) (s : State) (h : s.sp.val ≠ 0) : ∃ t, exec (.ret ign) s = .next t ∧
    t.pc = s.stack[s.sp.val - 1]'(by have := s.sp.isLt; omega) ∧ t.stack = s.stack ∧
    t.sp = ⟨s.sp.val - 1, by have := s.sp.isLt; omega⟩ ∧ CallFrame (.ret ign) s t :=
  exec_transfer _ s _ s.stack _ (retEffect_ok (s.latchAndAdvance (encode (.ret ign))) h)

theorem exec_call (nnn : Addr12) (s : State) (h : s.sp.val < 16) : ∃ t, exec (.call nnn) s = .next t ∧
    t.pc = target nnn ∧ t.stack = s.stack.set s.sp.val (s.pc + 2) h ∧ t.sp = ⟨s.sp.val + 1, by omega⟩ ∧
    CallFrame (.call nnn) s t :=
  exec_transfer _ s _ _ _ (callEffect_ok nnn (s.latchAndAdvance (encode (.call nnn))) h)

/-- What a completed call left for its return: the address after it, in the entry `sp` now stands above (R83, R89). -/
theorem exec_call_pushed (nnn : Addr12) (s t : State) (h : s.sp.val < 16) (ht : exec (.call nnn) s = .next t) :
    t.sp.val = s.sp.val + 1 ∧ t.stack[s.sp.val] = s.pc + 2 := by
  obtain ⟨t', ht', _, hstack, hsp, _⟩ := exec_call nnn s h
  obtain rfl : t' = t := Host.Outcome.next.inj (ht'.symm.trans ht)
  exact ⟨congrArg Fin.val hsp, by rw [getElem_congr_coll hstack, Vector.getElem_set_self]⟩

/-- A return with `sp` one above `k` resumes at entry `k` (R81). -/
theorem exec_ret_of_sp (ign : Byte) (s : State) (k : Nat) (hk : k < 16) (hsp : s.sp.val = k + 1) :
    ∃ t, exec (.ret ign) s = .next t ∧ t.pc = s.stack[k] ∧ t.sp.val = k ∧ t.fault = s.fault := by
  obtain ⟨t, ht, hpc, _, hspt, ⟨_, hfault, _⟩, _⟩ := exec_ret ign s (by omega)
  have htop : s.sp.val - 1 = k := by omega
  exact ⟨t, ht, hpc.trans (getElem_congr_idx htop), (congrArg Fin.val hspt).trans htop, hfault⟩

/-! ### Jump targets as natural numbers -/

theorem target_toNat (nnn : Addr12) : (target nnn).toNat = nnn.toNat :=
  BitVec.toNat_setWidth_of_le (by decide)

/-- The indexed jump's sum never reaches 2^16 and is not reduced modulo 4096 (R88). -/
theorem State.indexedTarget_toNat (s : State) (nnn : Addr12) :
    (s.indexedTarget nnn).toNat = (s.reg 0).toNat + nnn.toNat := by
  have hreg := (s.reg 0).isLt
  rw [s.indexedTarget_eq_ofNat, BitVec.toNat_ofNat, Nat.mod_eq_of_lt (by omega)]

end Sys2Proof.Machine

namespace Sys2Proof.Claims

open Sys2Proof.Machine

/-- Settles O33: `exec_ret` where an entry is in use; with none the execute step faults. -/
theorem returnPopsStack : Obligations.ReturnPopsStack := by
  refine ⟨selects_of_mem_opcodeMap (op := .ret) (by decide), fun ign s h => ?_, fun ign s h => ?_⟩
  · obtain ⟨t, ht, hpc, hstack, hsp, hframe⟩ := exec_ret ign s h
    exact ⟨t, ht, congrArg Fin.val hsp, hpc, hstack, hframe⟩
  · exact faults_of_effectOf _ s _ (retEffect_fault _ h)

/-- Settles O34: the execute step sets `pc` and nothing else. -/
theorem jumpSetsPc : Obligations.JumpSetsPc := by
  refine ⟨selects_of_mem_opcodeMap (op := .jp) (by decide), fun nnn s => ?_⟩
  obtain ⟨t, ht, hpc, hframe⟩ := exec_jump (.jp nnn) s (target nnn) rfl
  exact ⟨t, ht, hpc ▸ target_toNat nnn, hframe⟩

/-- Settles O35: `exec_call` where an entry is free, which writes that entry alone; with none the execute step faults. -/
theorem callPushesReturnAddress : Obligations.CallPushesReturnAddress := by
  refine ⟨selects_of_mem_opcodeMap (op := .call) (by decide), fun nnn s h => ?_, fun nnn s h => ?_⟩
  · obtain ⟨t, ht, hpc, hstack, _, hframe⟩ := exec_call nnn s h
    obtain ⟨hspt, hpushed⟩ := exec_call_pushed nnn s t h ht
    refine ⟨t, ht, hpushed, fun k hk => ?_, hspt, hpc ▸ target_toNat nnn, hframe⟩
    rw [hstack]
    exact Vector.getElem_set_ne _ _ hk.symm
  · exact faults_of_effectOf _ s _ (callEffect_fault nnn _ h)

/-- Settles O36: the return reads the entry the call wrote. -/
theorem callThenReturnResumes : Obligations.CallThenReturnResumes := by
  intro s t u nnn ign h hcall hsp hentry
  obtain ⟨hspt, hpushed⟩ := exec_call_pushed nnn s t h hcall
  obtain ⟨v, hv, hpc, hspv, hfault⟩ := exec_ret_of_sp ign u s.sp.val h ((congrArg Fin.val hsp).trans hspt)
  exact ⟨v, hv, hpc.trans (hentry.trans hpushed), Fin.ext hspv, hfault⟩

/-- Settles O37: both execute steps are skips, on equality and on its negation. -/
theorem skipOnImmediate : Obligations.SkipOnImmediate :=
  ⟨selects_of_mem_opcodeMap (op := .seVxKk) (by decide), selects_of_mem_opcodeMap (op := .sneVxKk) (by decide),
    fun x kk s => ⟨exec_skip (.seVxKk x kk) s (s.reg x = kk) rfl, exec_skip (.sneVxKk x kk) s (s.reg x ≠ kk) rfl⟩⟩

/-- Settles O38: both execute steps are skips, on equality and on its negation. -/
theorem skipOnRegisters : Obligations.SkipOnRegisters :=
  ⟨selects_of_mem_opcodeMap (op := .seVxVy) (by decide), selects_of_mem_opcodeMap (op := .sneVxVy) (by decide),
    fun x y ign s => ⟨exec_skip (.seVxVy x y ign) s (s.reg x = s.reg y) rfl,
      exec_skip (.sneVxVy x y ign) s (s.reg x ≠ s.reg y) rfl⟩⟩

/-- Settles O39: the execute step sets `pc` to the sum and nothing else. -/
theorem indexedJumpAddsV0 : Obligations.IndexedJumpAddsV0 := by
  refine ⟨selects_of_mem_opcodeMap (op := .jpV0) (by decide), fun nnn s => ?_⟩
  obtain ⟨t, ht, hpc, hframe⟩ := exec_jump (.jpV0 nnn) s (s.indexedTarget nnn) rfl
  exact ⟨t, ht, hpc ▸ s.indexedTarget_toNat nnn, hframe⟩

end Sys2Proof.Claims

/-!
Register and arithmetic operations (R90 to R103): the two immediates, copy and logic, sum, difference and shift with
their flags, and the random byte: obligations O40 to O45.
-/

namespace Sys2Proof.Machine

open Sys2Proof.Claims

/-! ### A cycle that writes general registers -/

/-- A cycle whose execute step leaves the registers and the count of draws of `u`, and moves nothing else, completes
with them, within the frame of a register operation that starts from that count. -/
theorem exec_registers (i : Instr) (s u : State)
    (h : effectOf i (s.latchAndAdvance (encode i)) =
      .ok { s.latchAndAdvance (encode i) with regs := u.regs, rndDraws := u.rndDraws }) :
    ∃ t, exec i s = .next t ∧ (∀ r, t.reg r = u.reg r) ∧ RegisterFrame i { s with rndDraws := u.rndDraws } t := by
  have hcycle := (exec_eq i s).trans (s.runCycle_ok _ _ _ h)
  exact ⟨_, hcycle, fun _ => rfl, ⟨rfl, rfl, rfl, rfl, rfl⟩, ⟨tick_toNat s.dt, tick_toNat s.st⟩, rfl, rfl, ⟨rfl, rfl⟩,
    fun _ => rfl, fun _ _ => rfl, rfl⟩

theorem State.setReg_regsKeptBut (s : State) (x : Nibble) (v : Byte) : RegsKeptBut x s (s.setReg x v) := by
  intro r hr
  rw [State.setReg_reg, if_neg hr]

theorem exec_setReg (i : Instr) (s : State) (x : Nibble) (v : Byte)
    (h : effectOf i (s.latchAndAdvance (encode i)) = .ok ((s.latchAndAdvance (encode i)).setReg x v)) :
    ∃ t, exec i s = .next t ∧ t.reg x = v ∧ RegsKeptBut x s t ∧ RegisterFrame i s t := by
  obtain ⟨t, ht, hreg, hframe⟩ := exec_registers i s (s.setReg x v) h
  exact ⟨t, ht, (hreg x).trans (by simp), fun r hr => (hreg r).trans (s.setReg_regsKeptBut x v r hr), hframe⟩

/-- Of two writes the later one wins where they name one register (R13). -/
theorem exec_setReg_setReg (i : Instr) (s : State) (x y : Nibble) (v w : Byte)
    (h : effectOf i (s.latchAndAdvance (encode i)) =
      .ok (((s.latchAndAdvance (encode i)).setReg x v).setReg y w)) :
    ∃ t, exec i s = .next t ∧ t.reg y = w ∧ (x ≠ y → t.reg x = v) ∧
      (∀ r, r ≠ x → r ≠ y → t.reg r = s.reg r) ∧ RegisterFrame i s t := by
  obtain ⟨t, ht, hreg, hframe⟩ := exec_registers i s ((s.setReg x v).setReg y w) h
  refine ⟨t, ht, (hreg y).trans (by simp), fun hxy => (hreg x).trans (by simp [hxy]), fun r hx hy => ?_, hframe⟩
  calc t.reg r
    _ = ((s.setReg x v).setReg y w).reg r := hreg r
    _ = (s.setReg x v).reg r := (s.setReg x v).setReg_regsKeptBut y w r hy
    _ = s.reg r := s.setReg_regsKeptBut x v r hx

/-! ### The flags as natural numbers -/

theorem flagByte_toNat (b : Bool) : (flagByte b).toNat = b.toNat := by cases b <;> rfl

theorem flagByte_decide_toNat (p : Prop) [Decidable p] : (flagByte (decide p)).toNat = if p then 1 else 0 := by
  rw [flagByte_toNat, Bool.toNat, Bool.cond_decide]

theorem carryFlag_toNat (a b : Byte) : (carryFlag a b).toNat = if a.toNat + b.toNat > 255 then 1 else 0 :=
  flagByte_decide_toNat _

theorem greaterFlag_toNat (a b : Byte) : (greaterFlag a b).toNat = if a.toNat > b.toNat then 1 else 0 :=
  flagByte_decide_toNat _

theorem lowBitFlag_toNat (a : Byte) : (lowBitFlag a).toNat = a.toNat % 2 := by
  rw [lowBitFlag, flagByte_toNat, BitVec.getLsbD, Nat.toNat_testBit]
  simp

theorem topBitFlag_toNat (a : Byte) : (topBitFlag a).toNat = a.toNat / 128 := by
  have ha := a.isLt
  rw [topBitFlag, flagByte_toNat, BitVec.getLsbD, Nat.toNat_testBit]
  omega

/-! ### The values as natural numbers -/

theorem byte_sub_toNat (a b : Byte) : (a - b).toNat = (256 + a.toNat - b.toNat) % 256 := by
  have hb := b.isLt
  rw [BitVec.toNat_sub]
  omega

theorem byte_shiftRight_one_toNat (a : Byte) : (a >>> 1).toNat = a.toNat / 2 := by
  rw [BitVec.toNat_ushiftRight, Nat.shiftRight_eq_div_pow]

theorem byte_shiftLeft_one_toNat (a : Byte) : (a <<< 1).toNat = a.toNat * 2 % 256 := by
  rw [BitVec.toNat_shiftLeft, Nat.shiftLeft_eq]

/-! ### The random byte -/

theorem maskedDraw_getLsbD (rnd kk : Byte) (b : Nat) :
    (maskedDraw rnd kk).getLsbD b = (rnd.getLsbD b && kk.getLsbD b) := BitVec.getLsbD_and

/-- The mask admits a byte exactly where some draw gives it, which is then that byte itself. -/
theorem and_not_mask_eq_zero_iff (kk r : Byte) : r &&& ~~~kk = 0 ↔ ∃ rnd, maskedDraw rnd kk = r := by
  constructor
  · intro h
    refine ⟨r, BitVec.eq_of_getLsbD_eq fun b hb => ?_⟩
    have hbit : (r &&& ~~~kk).getLsbD b = false := by rw [h]; exact BitVec.getLsbD_zero
    rw [maskedDraw_getLsbD, Bool.and_eq_left_iff_imp]
    intro hr
    simpa [hr, hb] using hbit
  · rintro ⟨rnd, rfl⟩
    calc rnd &&& kk &&& ~~~kk
      _ = rnd &&& (kk &&& ~~~kk) := BitVec.and_assoc rnd kk _
      _ = 0 := by simp

end Sys2Proof.Machine

namespace Sys2Proof.Claims

open Sys2Proof.Machine

/-- Settles O40: each execute step is one register write. -/
theorem immediateLoadAndAdd : Obligations.ImmediateLoadAndAdd := by
  refine ⟨selects_of_mem_opcodeMap (op := .ldVxKk) (by decide), selects_of_mem_opcodeMap (op := .addVxKk) (by decide),
    fun x kk s => ⟨exec_setReg (.ldVxKk x kk) s x kk rfl, ?_⟩⟩
  obtain ⟨t, ht, hsum, hrest⟩ := exec_setReg (.addVxKk x kk) s x (s.reg x + kk) rfl
  exact ⟨t, ht, hsum ▸ BitVec.toNat_add _ _, hrest⟩

/-- Settles O41: each execute step is one register write. -/
theorem copyAndLogic : Obligations.CopyAndLogic := by
  refine ⟨selects_of_mem_opcodeMap (op := .ldVxVy) (by decide), selects_of_mem_opcodeMap (op := .or) (by decide),
    selects_of_mem_opcodeMap (op := .and) (by decide), selects_of_mem_opcodeMap (op := .xor) (by decide),
    fun x y s => ⟨exec_setReg (.ldVxVy x y) s x (s.reg y) rfl, ?_, ?_, ?_⟩⟩
  · obtain ⟨t, ht, hor, hrest⟩ := exec_setReg (.or x y) s x (s.reg x ||| s.reg y) rfl
    exact ⟨t, ht, fun _ _ => hor ▸ BitVec.getLsbD_or, hrest⟩
  · obtain ⟨t, ht, hand, hrest⟩ := exec_setReg (.and x y) s x (s.reg x &&& s.reg y) rfl
    exact ⟨t, ht, fun _ _ => hand ▸ BitVec.getLsbD_and, hrest⟩
  · obtain ⟨t, ht, hxor, hrest⟩ := exec_setReg (.xor x y) s x (s.reg x ^^^ s.reg y) rfl
    exact ⟨t, ht, fun _ _ => hxor ▸ BitVec.getLsbD_xor, hrest⟩

/-- Settles O42: the sum is written first and the carry second. -/
theorem addSetsCarry : Obligations.AddSetsCarry := by
  refine ⟨selects_of_mem_opcodeMap (op := .addVxVy) (by decide), fun x y s => ?_⟩
  obtain ⟨t, ht, hflag, hsum, hrest⟩ := exec_setReg_setReg (.addVxVy x y) s x vf _ _ rfl
  exact ⟨t, ht, hflag ▸ carryFlag_toNat _ _, fun hx => hsum hx ▸ BitVec.toNat_add _ _, hrest⟩

/-- Settles O43: the difference is written first and the comparison second. -/
theorem subtractSetsStrictFlag : Obligations.SubtractSetsStrictFlag := by
  refine ⟨selects_of_mem_opcodeMap (op := .sub) (by decide), selects_of_mem_opcodeMap (op := .subn) (by decide),
    fun x y s => ⟨?_, ?_⟩⟩
  · obtain ⟨t, ht, hflag, hdiff, hrest⟩ := exec_setReg_setReg (.sub x y) s x vf _ _ rfl
    exact ⟨t, ht, hflag ▸ greaterFlag_toNat _ _, fun hx => hdiff hx ▸ byte_sub_toNat _ _, hrest⟩
  · obtain ⟨t, ht, hflag, hdiff, hrest⟩ := exec_setReg_setReg (.subn x y) s x vf _ _ rfl
    exact ⟨t, ht, hflag ▸ greaterFlag_toNat _ _, fun hx => hdiff hx ▸ byte_sub_toNat _ _, hrest⟩

/-- Settles O44: the flag is written first and the shifted value second. -/
theorem shiftInPlace : Obligations.ShiftInPlace := by
  refine ⟨selects_of_mem_opcodeMap (op := .shr) (by decide), selects_of_mem_opcodeMap (op := .shl) (by decide),
    fun x y s => ⟨?_, ?_⟩⟩
  · obtain ⟨t, ht, hvalue, hflag, hkept, hframe⟩ := exec_setReg_setReg (.shr x y) s vf x _ _ rfl
    exact ⟨t, ht, hvalue ▸ byte_shiftRight_one_toNat _, fun hx => hflag hx.symm ▸ lowBitFlag_toNat _,
      fun r hx hvf => hkept r hvf hx, hframe⟩
  · obtain ⟨t, ht, hvalue, hflag, hkept, hframe⟩ := exec_setReg_setReg (.shl x y) s vf x _ _ rfl
    exact ⟨t, ht, hvalue ▸ byte_shiftLeft_one_toNat _, fun hx => hflag hx.symm ▸ topBitFlag_toNat _,
      fun r hx hvf => hkept r hvf hx, hframe⟩

/-- Settles O45: the masked byte is written and the draw counted; a byte within the mask is its own draw's result. -/
theorem randomByteIsMasked : Obligations.RandomByteIsMasked := by
  refine ⟨selects_of_mem_opcodeMap (op := .rnd) (by decide), fun x kk s => ?_,
    fun rnd kk b _ => maskedDraw_getLsbD rnd kk b, and_not_mask_eq_zero_iff⟩
  obtain ⟨t, ht, hreg, hframe⟩ :=
    exec_registers (.rnd x kk) s (s.countDraw.setReg x (maskedDraw (Config.rnd s.rndDraws) kk)) rfl
  exact ⟨t, ht, (hreg x).trans (by simp), fun r hr => (hreg r).trans (s.countDraw.setReg_regsKeptBut x _ r hr), hframe⟩

end Sys2Proof.Claims

/-!
Index register, loads and stores (R105 to R112): setting and advancing `I`, the glyph address, the two stores and the
load, and the round trip of the two: obligations O46 to O51.
-/

namespace Sys2Proof.Machine

open Sys2Proof.Claims

/-! ### A cycle that sets `I`, a cycle that stores, the cycle that loads -/

/-- A cycle whose execute step sets `I` alone completes within the frame of an index operation. -/
theorem exec_setIndex (i : Instr) (s : State) (v : Word)
    (h : effectOf i (s.latchAndAdvance (encode i)) = .ok ((s.latchAndAdvance (encode i)).setIndex v)) :
    ∃ t, exec i s = .next t ∧ t.index = v ∧ IndexFrame i s t := by
  have hcycle := (exec_eq i s).trans (s.runCycle_ok _ _ _ h)
  exact ⟨_, hcycle, rfl, ⟨rfl, rfl, rfl, rfl, rfl⟩, ⟨tick_toNat s.dt, tick_toNat s.st⟩, rfl, fun _ => rfl, ⟨rfl, rfl⟩,
    fun _ => rfl, fun _ _ => rfl, rfl⟩

/-- A cycle whose execute step stores `bytes` at `I`, within RAM, completes with them there and every other byte as
before, within the frame of a store. -/
theorem exec_store (i : Instr) (s : State) (bytes : List Byte)
    (h : effectOf i (s.latchAndAdvance (encode i)) = (s.latchAndAdvance (encode i)).memWrite s.dataAddr bytes)
    (hlow : 0x050 ≤ s.dataAddr) (hend : s.dataAddr + bytes.length ≤ 0x1000) :
    ∃ t, exec i s = .next t ∧ (∀ k (hk : k < bytes.length), t.byte (s.dataAddr + k) = bytes[k]) ∧
      (∀ a, a < s.dataAddr ∨ s.dataAddr + bytes.length ≤ a → t.byte a = s.byte a) ∧ StoreFrame i s t := by
  have hcycle := (exec_eq i s).trans (s.runCycle_ok _ _ _ (h.trans (State.memWrite_ok _ _ bytes hlow hend)))
  exact ⟨_, hcycle, fun k hk => s.byte_writeBytes_inside s.dataAddr k bytes hlow hk,
    fun a ha => s.byte_writeBytes_outside s.dataAddr a bytes hlow ha, ⟨rfl, rfl, rfl, rfl, rfl⟩,
    ⟨tick_toNat s.dt, tick_toNat s.st⟩, rfl, fun _ => rfl, rfl, ⟨rfl, rfl⟩, fun _ _ => rfl, rfl⟩

/-- The load completes with the bytes at `I` in the registers up to `x`, within the frame of a register operation. -/
theorem exec_ldVxImem (x : Nibble) (s : State) (h : s.dataAddr + x.toNat ≤ 0xFFF) :
    ∃ t, exec (.ldVxImem x) s = .next t ∧
      (∀ r : Nibble, t.reg r = if r.toNat ≤ x.toNat then s.byte (s.dataAddr + r.toNat) else s.reg r) ∧
      RegisterFrame (.ldVxImem x) s t := by
  obtain ⟨t, ht, hreg, hframe⟩ := exec_registers (.ldVxImem x) s
    (s.setRegsFrom0 (s.bytes s.dataAddr (x.toNat + 1))) (ldVxImemEffect_ok x (s.latchAndAdvance _) h)
  refine ⟨t, ht, fun r => (hreg r).trans ?_, hframe⟩
  simp only [State.setRegsFrom0_reg, State.bytes_getD, Nat.lt_succ_iff]

/-! ### The values as natural numbers -/

theorem zeroExtend16_toNat (v : Byte) : (v.zeroExtend 16).toNat = v.toNat :=
  BitVec.toNat_setWidth_of_le (by decide)

/-- The glyph address never reaches 2^16, and the register value is not masked (R108, D14). -/
theorem glyphAddr_toNat (v : Byte) : (glyphAddr v).toNat = 5 * v.toNat := by
  have hv := v.isLt
  have hmul : (glyphAddr v).toNat = 5 * (v.zeroExtend 16).toNat % 65536 := BitVec.toNat_mul _ _
  rw [hmul, zeroExtend16_toNat, Nat.mod_eq_of_lt (by omega)]

/-- Each decimal digit of a byte fits the byte it is stored in (R109). -/
theorem decimalDigits_toNat (v : Byte) :
    (decimalDigits v)[0].toNat = v.toNat / 100 ∧ (decimalDigits v)[1].toNat = v.toNat / 10 % 10 ∧
    (decimalDigits v)[2].toNat = v.toNat % 10 := by
  have hv := v.isLt
  exact ⟨Nat.mod_eq_of_lt (by omega), Nat.mod_eq_of_lt (by omega), Nat.mod_eq_of_lt (by omega)⟩

end Sys2Proof.Machine

namespace Sys2Proof.Claims

open Sys2Proof.Machine

/-- Settles O46: both execute steps set `I`, to the immediate and to the sum. -/
theorem indexLoadAndAdd : Obligations.IndexLoadAndAdd := by
  refine ⟨selects_of_mem_opcodeMap (op := .ldINnn) (by decide), selects_of_mem_opcodeMap (op := .addIVx) (by decide),
    fun nnn s => ?_, fun x s => ?_⟩
  · obtain ⟨t, ht, hindex, hframe⟩ := exec_setIndex (.ldINnn nnn) s (target nnn) rfl
    exact ⟨t, ht, hindex ▸ target_toNat nnn, hframe⟩
  · obtain ⟨t, ht, hindex, hframe⟩ := exec_setIndex (.addIVx x) s (s.index + (s.reg x).zeroExtend 16) rfl
    exact ⟨t, ht, by rw [hindex, BitVec.toNat_add, zeroExtend16_toNat], hframe⟩

/-- Settles O47: the execute step sets `I` to the glyph address. -/
theorem glyphAddress : Obligations.GlyphAddress := by
  refine ⟨selects_of_mem_opcodeMap (op := .ldFVx) (by decide), fun x s => ?_⟩
  obtain ⟨t, ht, hindex, hframe⟩ := exec_setIndex (.ldFVx x) s (glyphAddr (s.reg x)) rfl
  exact ⟨t, ht, hindex ▸ glyphAddr_toNat (s.reg x), hframe⟩

/-- Settles O48: within RAM the execute step stores the three digits; outside it faults. -/
theorem decimalDigitsStored : Obligations.DecimalDigitsStored := by
  refine ⟨selects_of_mem_opcodeMap (op := .ldBVx) (by decide), fun x s hlow hend => ?_,
    fun x s h => faults_of_effectOf _ s _ (ldBVxEffect_outOfRange x _ h),
    fun x s h => faults_of_effectOf _ s _ (ldBVxEffect_glyphRom x _ h)⟩
  obtain ⟨t, ht, hstored, hkept, hframe⟩ :=
    exec_store (.ldBVx x) s (decimalDigits (s.reg x)) rfl hlow (by rw [decimalDigits_length]; omega)
  obtain ⟨hhundreds, htens, hones⟩ := decimalDigits_toNat (s.reg x)
  exact ⟨t, ht, hstored 0 (by simp) ▸ hhundreds, hstored 1 (by simp) ▸ htens, hstored 2 (by simp) ▸ hones, hkept, hframe⟩

/-- Settles O49: within RAM the execute step stores the registers; outside it faults. -/
theorem registersStored : Obligations.RegistersStored := by
  refine ⟨selects_of_mem_opcodeMap (op := .ldImemVx) (by decide), fun x s hlow hend => ?_,
    fun x s h => faults_of_effectOf _ s _ (ldImemVxEffect_outOfRange x _ h),
    fun x s h => faults_of_effectOf _ s _ (ldImemVxEffect_glyphRom x _ h)⟩
  obtain ⟨t, ht, hstored, hkept, hframe⟩ :=
    exec_store (.ldImemVx x) s (s.regsUpTo x) rfl hlow (by rw [State.regsUpTo_length]; omega)
  rw [State.regsUpTo_length] at hkept
  refine ⟨t, ht, fun k hk => ?_, hkept, hframe⟩
  rw [hstored k.toNat (by rw [State.regsUpTo_length]; omega), State.regsUpTo_getElem, BitVec.ofNat_toNat,
    BitVec.setWidth_eq]

/-- Settles O50: in range the execute step loads the registers; out of range it faults. -/
theorem registersLoaded : Obligations.RegistersLoaded :=
  ⟨selects_of_mem_opcodeMap (op := .ldVxImem) (by decide), exec_ldVxImem,
    fun x s h => faults_of_effectOf _ s _ (ldVxImemEffect_fault x _ h)⟩

/-- Settles O51: the load reads back the bytes the store left. -/
theorem storeThenLoadRestores : Obligations.StoreThenLoadRestores := by
  intro x s t u _ hstore ht hindex hbytes
  obtain ⟨_, hend, hstored⟩ := exec_ldImemVx_stores x s t hstore ht
  have haddr : u.dataAddr = s.dataAddr := congrArg BitVec.toNat hindex
  obtain ⟨v, hload, hloaded, ⟨_, hfault, _⟩, _⟩ := exec_ldVxImem x u (haddr ▸ hend)
  refine ⟨v, hload, hfault, fun r hr => ?_⟩
  calc v.reg r
    _ = u.byte (u.dataAddr + r.toNat) := by rw [hloaded, if_pos hr]
    _ = t.byte (s.dataAddr + r.toNat) := by rw [haddr, hbytes r.toNat hr]
    _ = s.reg r := hstored r hr

end Sys2Proof.Claims

/-!
Display operations (R115 to R118): the cells a sprite lands on under either edge policy, the clear, the draw and the
second draw: obligations O52 to O55.
-/

namespace Sys2Proof.Machine

open Sys2Proof.Claims

/-! ### The cells a sprite lands on -/

theorem placePixel_wrap_iff (qx qy : Nat) (px : Fin 64) (py : Fin 32) :
    placePixel .wrap (qx, qy) = some (px, py) ↔ qx % 64 = px.val ∧ qy % 32 = py.val := by
  simp only [placePixel, Option.some.injEq, Prod.mk.injEq, Fin.ext_iff, Fin.val_ofNat]

theorem placePixel_clip_iff (qx qy : Nat) (px : Fin 64) (py : Fin 32) :
    placePixel .clip (qx, qy) = some (px, py) ↔ qx = px.val ∧ qy = py.val := by
  simp only [placePixel]
  split
  · simp only [Option.some.injEq, Prod.mk.injEq, Fin.ext_iff]
  · simp only [reduceCtorEq, false_iff]
    omega

/-- On the screen the two policies agree. -/
theorem placePixel_onScreen_iff (edge : DrawEdge) (qx qy : Nat) (hx : qx < 64) (hy : qy < 32) (px : Fin 64)
    (py : Fin 32) : placePixel edge (qx, qy) = some (px, py) ↔ qx = px.val ∧ qy = py.val := by
  cases edge with
  | wrap => rw [placePixel_wrap_iff, Nat.mod_eq_of_lt hx, Nat.mod_eq_of_lt hy]
  | clip => exact placePixel_clip_iff qx qy px py

/-- The cells `Dxyn` toggles in `s` where its rows are in range: those of the `n` rows at `I`. -/
def State.hitCells (s : State) (x y n : Nibble) : List (Fin 64 × Fin 32) :=
  s.drawnCells x y (s.bytes s.dataAddr n.toNat)

theorem State.hitCells_nodup (s : State) (x y n : Nibble) : (s.hitCells x y n).Nodup :=
  spriteCells_nodup _ _ _ _ (by rw [State.bytes_length]; have := n.isLt; omega)

/-- The pixels of the rows at `I` are those the set bits there ask for. -/
theorem State.mem_spritePixels_bytes (s : State) (n : Nibble) (x0 y0 qx qy : Nat) :
    (qx, qy) ∈ spritePixels x0 y0 (s.bytes s.dataAddr n.toNat) ↔ SpriteBit s n x0 y0 qx qy := by
  rw [mem_spritePixels, State.bytes_length]
  refine exists_congr fun r => exists_congr fun c => and_congr_right fun hr => ?_
  rw [State.bytes_getD, if_pos hr, Prod.mk.injEq]

theorem State.mem_hitCells (s : State) (x y n : Nibble) (px : Fin 64) (py : Fin 32) :
    (px, py) ∈ s.hitCells x y n ↔ ∃ qx qy,
      SpriteBit s n ((s.reg x).toNat % 64) ((s.reg y).toNat % 32) qx qy ∧
      placePixel s.params.drawEdge (qx, qy) = some (px, py) := by
  simp only [State.hitCells, State.drawnCells, spriteCells, originX, originY, List.mem_filterMap, Prod.exists,
    State.mem_spritePixels_bytes]

/-- Under `wrap` a sprite lands on the cells R116 names. -/
theorem State.mem_hitCells_wrap (s : State) (x y n : Nibble) (h : s.params.drawEdge = .wrap) (px : Fin 64)
    (py : Fin 32) : (px, py) ∈ s.hitCells x y n ↔ WrapHit s x y n px py := by
  simp only [State.mem_hitCells, h, placePixel_wrap_iff, WrapHit]

/-- Under `clip` a sprite lands on the cells R117 names. -/
theorem State.mem_hitCells_clip (s : State) (x y n : Nibble) (h : s.params.drawEdge = .clip) (px : Fin 64)
    (py : Fin 32) : (px, py) ∈ s.hitCells x y n ↔ ClipHit s x y n px py := by
  simp only [State.mem_hitCells, h, placePixel_clip_iff, ClipHit]
  constructor
  · rintro ⟨qx, qy, hbit, rfl, rfl⟩; exact hbit
  · intro hbit; exact ⟨_, _, hbit, rfl, rfl⟩

/-- One row of set bits from `(0,0)` lands on the first eight cells of row 0, under either edge policy. -/
theorem State.mem_hitCells_setRow (s : State) (x y : Nibble) (hbyte : s.byte s.dataAddr = 0xFF) (hx : s.reg x = 0)
    (hy : s.reg y = 0) (px : Fin 64) (py : Fin 32) : (px, py) ∈ s.hitCells x y 1 ↔ px.val < 8 ∧ py.val = 0 := by
  have hbit : ∀ c, c < 8 → (0xFF : Byte).getLsbD (7 - c) = true := by decide
  have hsprite : ∀ qx qy, SpriteBit s 1 0 0 qx qy ↔ qx < 8 ∧ qy = 0 := by
    intro qx qy
    constructor
    · rintro ⟨r, c, hr, hc, -, rfl, rfl⟩
      have hr1 : r < 1 := hr
      omega
    · rintro ⟨hqx, rfl⟩
      exact ⟨0, qx, by decide, hqx, hbyte ▸ hbit qx hqx, by omega, rfl⟩
  rw [State.mem_hitCells, hx, hy]
  constructor
  · rintro ⟨qx, qy, hq, hplace⟩
    obtain ⟨hqx, rfl⟩ := (hsprite qx qy).1 hq
    obtain ⟨rfl, hpy⟩ := (placePixel_onScreen_iff _ qx 0 (by omega) (by omega) px py).1 hplace
    exact ⟨hqx, hpy.symm⟩
  · rintro ⟨hpx, hpy⟩
    exact ⟨px.val, py.val, (hsprite _ _).2 ⟨hpx, hpy⟩,
      (placePixel_onScreen_iff _ _ _ px.isLt py.isLt px py).2 ⟨rfl, rfl⟩⟩

/-- A sprite lands on the same cells wherever the parameters, `I`, memory and the origin are the same. -/
theorem State.hitCells_congr (s t : State) (x y n : Nibble) (hparams : t.params = s.params) (hindex : t.index = s.index)
    (hmem : MemKept s t) (hx : (t.reg x).toNat % 64 = (s.reg x).toNat % 64)
    (hy : (t.reg y).toNat % 32 = (s.reg y).toNat % 32) : t.hitCells x y n = s.hitCells x y n := by
  have hbyte : t.byte = s.byte := funext hmem
  simp only [State.hitCells, State.drawnCells, State.bytes, State.dataAddr, originX, originY, hparams, hindex, hbyte,
    hx, hy]

/-! ### The collision flag -/

theorem any_cell_iff (v : Video) (cells : List (Fin 64 × Fin 32)) :
    (cells.any fun c => v.cell c.1 c.2) = true ↔ ∃ px py, (px, py) ∈ cells ∧ v.cell px py = true := by
  simp only [List.any_eq_true, Prod.exists]

theorem collisionFlag_of_lit (v : Video) (cells : List (Fin 64 × Fin 32))
    (h : ∃ px py, (px, py) ∈ cells ∧ v.cell px py = true) : collisionFlag v cells = 1 := by
  rw [collisionFlag, (any_cell_iff v cells).2 h]; rfl

theorem collisionFlag_of_dark (v : Video) (cells : List (Fin 64 × Fin 32))
    (h : ¬ ∃ px py, (px, py) ∈ cells ∧ v.cell px py = true) : collisionFlag v cells = 0 := by
  rw [collisionFlag, Bool.eq_false_iff.2 (mt (any_cell_iff v cells).1 h)]; rfl

/-! ### The cycles of the two display operations -/

/-- A cycle whose execute step leaves the framebuffer of `u` and its registers, which differ in `VF` at most, and moves
nothing else, completes with them, within the frame of a display operation. -/
theorem exec_display (i : Instr) (s u : State) (hregs : RegsKeptBut 0xF s u)
    (h : effectOf i (s.latchAndAdvance (encode i)) =
      .ok { s.latchAndAdvance (encode i) with video := u.video, regs := u.regs }) :
    ∃ t, exec i s = .next t ∧ t.video = u.video ∧ t.reg 0xF = u.reg 0xF ∧ DisplayFrame i s t := by
  have hcycle := (exec_eq i s).trans (s.runCycle_ok _ _ _ h)
  exact ⟨_, hcycle, rfl, rfl, ⟨rfl, rfl, rfl, rfl, rfl⟩, ⟨tick_toNat s.dt, tick_toNat s.st⟩, rfl, hregs, rfl,
    ⟨rfl, rfl⟩, fun _ => rfl, rfl⟩

theorem reg_eq_of_regsKeptBut (x r : Nibble) (s t : State) (h : RegsKeptBut x s t)
    (hx : r = x → t.reg x = s.reg x) : t.reg r = s.reg r := by
  by_cases hr : r = x
  · rw [hr, hx hr]
  · exact h r hr

theorem exec_cls (ign : Byte) (s : State) : ∃ t, exec (.cls ign) s = .next t ∧ (∀ px py, t.cell px py = false) ∧
    t.reg 0xF = s.reg 0xF ∧ DisplayFrame (.cls ign) s t := by
  obtain ⟨t, ht, hvideo, hflag, hframe⟩ :=
    exec_display (.cls ign) s (s.setVideo Video.dark) (fun _ _ => State.setVideo_reg s _ _) rfl
  exact ⟨t, ht, fun px py => by rw [State.cell, hvideo]; exact Video.dark_cell px py, hflag, hframe⟩

/-- The draw in range, whatever the edge policy, of a sprite that lands on the cells of `Hit` (R116, R117). -/
theorem exec_drw (x y n : Nibble) (s : State) (Hit : Fin 64 → Fin 32 → Prop)
    (hHit : ∀ px py, (px, py) ∈ s.hitCells x y n ↔ Hit px py)
    (hrange : n.toNat = 0 ∨ s.dataAddr + n.toNat - 1 ≤ 0xFFF) :
    ∃ t, exec (.drw x y n) s = .next t ∧
      (∀ px py, Hit px py → t.cell px py = !s.cell px py) ∧
      (∀ px py, ¬ Hit px py → t.cell px py = s.cell px py) ∧
      ((∃ px py, Hit px py ∧ s.cell px py = true) → t.reg 0xF = 1) ∧
      ((¬ ∃ px py, Hit px py ∧ s.cell px py = true) → t.reg 0xF = 0) ∧
      DisplayFrame (.drw x y n) s t := by
  simp only [← hHit]
  obtain ⟨t, ht, hvideo, hflag, hframe⟩ := exec_display (.drw x y n) s
    ((s.setVideo (s.video.toggleAll (s.hitCells x y n))).setReg vf (collisionFlag s.video (s.hitCells x y n)))
    (State.setReg_regsKeptBut _ vf _) (drwEffect_ok x y n (s.latchAndAdvance _) hrange)
  have hcell : ∀ px py, t.cell px py = if (px, py) ∈ s.hitCells x y n then !s.cell px py else s.cell px py :=
    fun px py => by
      rw [State.cell, hvideo]
      exact Video.toggleAll_cell _ s.video px py (s.hitCells_nodup x y n)
  replace hflag : t.reg 0xF = collisionFlag s.video (s.hitCells x y n) := hflag.trans (by simp [vf])
  exact ⟨t, ht, fun px py h => (hcell px py).trans (if_pos h), fun px py h => (hcell px py).trans (if_neg h),
    fun h => hflag.trans (collisionFlag_of_lit _ _ h), fun h => hflag.trans (collisionFlag_of_dark _ _ h), hframe⟩

theorem faults_drw (x y n : Nibble) (s : State) (h0 : 0 < n.toNat) (h : 0xFFF < s.dataAddr + n.toNat - 1) :
    Faults (.drw x y n) s .memReadOutOfRange :=
  faults_of_effectOf _ s _ (drwEffect_fault x y n (s.latchAndAdvance _) h0 h)

/-- A draw that latched no fault read its rows in range. -/
theorem exec_drw_inRange (x y n : Nibble) (s t : State) (h : exec (.drw x y n) s = .next t) (ht : t.fault = none) :
    n.toNat = 0 ∨ s.dataAddr + n.toNat - 1 ≤ 0xFFF := by
  rcases exec_cases _ s t h with ⟨u, hu, rfl⟩ | ⟨c, _, rfl⟩
  · exact (drwEffect_inv x y n (s.latchAndAdvance _) u hu).1
  · exact absurd ht (by simp)

/-- A second draw from the same origin hits the same cells: it restores the framebuffer, and collides where the first
lit a dark cell (R118). -/
theorem exec_drw_again (x y n : Nibble) (s t : State) (hrange : n.toNat = 0 ∨ s.dataAddr + n.toNat - 1 ≤ 0xFFF)
    (h : exec (.drw x y n) s = .next t) (hx : (t.reg x).toNat % 64 = (s.reg x).toNat % 64)
    (hy : (t.reg y).toNat % 32 = (s.reg y).toNat % 32) :
    ∃ u, exec (.drw x y n) t = .next u ∧ VideoKept s u ∧
      ((∃ px py, s.cell px py = false ∧ t.cell px py = true) → u.reg 0xF = 1) ∧
      ((¬ ∃ px py, s.cell px py = false ∧ t.cell px py = true) → u.reg 0xF = 0) := by
  obtain ⟨t', ht', hhit, hmiss, -, -, ⟨-, -, -, -, hparams⟩, -, -, -, hindex, -, hmem, -⟩ :=
    exec_drw x y n s _ (fun _ _ => Iff.rfl) hrange
  obtain rfl : t' = t := Host.Outcome.next.inj (ht'.symm.trans h)
  have hcells := s.hitCells_congr t' x y n hparams hindex hmem hx hy
  have haddr : t'.dataAddr = s.dataAddr := congrArg BitVec.toNat hindex
  obtain ⟨u, hu, hhit', hmiss', hlit, hdark, -⟩ :=
    exec_drw x y n t' (fun px py => (px, py) ∈ s.hitCells x y n) (fun px py => by rw [hcells]) (haddr ▸ hrange)
  have hcollide : ∀ px py,
      ((px, py) ∈ s.hitCells x y n ∧ t'.cell px py = true) ↔ (s.cell px py = false ∧ t'.cell px py = true) := by
    intro px py
    by_cases hp : (px, py) ∈ s.hitCells x y n
    · simp [hp, hhit px py hp]
    · simp [hp, hmiss px py hp]
  refine ⟨u, hu, fun px py => ?_, ?_⟩
  · by_cases hp : (px, py) ∈ s.hitCells x y n
    · rw [hhit' px py hp, hhit px py hp, Bool.not_not]
    · rw [hmiss' px py hp, hmiss px py hp]
  · simp only [← hcollide]
    exact ⟨hlit, hdark⟩

/-- The document's test (R118): on a dark framebuffer a row of set bits drawn from `(0,0)` lights its eight cells,
without a collision; drawn again it leaves every cell dark, with one. -/
theorem exec_drw_setRow_twice (x y : Nibble) (s : State) (haddr : s.dataAddr ≤ 0xFFF)
    (hbyte : s.byte s.dataAddr = 0xFF) (hx : s.reg x = 0) (hy : s.reg y = 0)
    (hdark : ∀ px py, s.cell px py = false) :
    ∃ t u, exec (.drw x y 1) s = .next t ∧ exec (.drw x y 1) t = .next u ∧
      (∀ px py, t.cell px py = true ↔ px.val < 8 ∧ py.val = 0) ∧ t.reg 0xF = 0 ∧
      (∀ px py, u.cell px py = false) ∧ u.reg 0xF = 1 := by
  have hrange : (1 : Nibble).toNat = 0 ∨ s.dataAddr + (1 : Nibble).toNat - 1 ≤ 0xFFF := .inr haddr
  obtain ⟨t, ht, hhit, hmiss, -, hflag, -, -, -, hregs, -⟩ :=
    exec_drw x y 1 s _ (s.mem_hitCells_setRow x y hbyte hx hy) hrange
  have hvf : t.reg 0xF = 0 := hflag (by simp [hdark])
  have hlit : ∀ px py, t.cell px py = true ↔ px.val < 8 ∧ py.val = 0 := by
    intro px py
    by_cases hp : px.val < 8 ∧ py.val = 0
    · simp [hhit px py hp, hdark, hp]
    · simp only [hmiss px py hp, hdark, hp, Bool.false_eq_true]
  have horigin : ∀ r, s.reg r = 0 → t.reg r = s.reg r := fun r hr =>
    reg_eq_of_regsKeptBut 0xF r s t hregs fun hF => by rw [hvf, ← hF, hr]
  obtain ⟨u, hu, hrestored, hcollision, -⟩ :=
    exec_drw_again x y 1 s t hrange ht (by rw [horigin x hx]) (by rw [horigin y hy])
  exact ⟨t, u, ht, hu, hlit, hvf, fun px py => (hrestored px py).trans (hdark px py),
    hcollision ⟨0, 0, hdark 0 0, (hlit 0 0).2 (by decide)⟩⟩

end Sys2Proof.Machine

namespace Sys2Proof.Claims

open Sys2Proof.Machine

/-- Settles O52: the execute step replaces the framebuffer by the dark one and writes no register. -/
theorem clearDarkensEveryCell : Obligations.ClearDarkensEveryCell :=
  ⟨selects_of_mem_opcodeMap (op := .cls) (by decide), exec_cls⟩

/-- Settles O53: under `wrap` the cells a sprite lands on are the wrapped ones. -/
theorem drawTogglesSpriteCells : Obligations.DrawTogglesSpriteCells :=
  ⟨selects_of_mem_opcodeMap (op := .drw) (by decide),
    fun x y n s hedge => exec_drw x y n s _ (s.mem_hitCells_wrap x y n hedge), faults_drw⟩

/-- Settles O54: under `clip` the cells a sprite lands on are those on the screen. -/
theorem clipSkipsOffScreenPixels : Obligations.ClipSkipsOffScreenPixels :=
  ⟨fun x y n s hedge => exec_drw x y n s _ (s.mem_hitCells_clip x y n hedge), fun x y n s _ => faults_drw x y n s⟩

/-- Settles O55: the second draw toggles the same cells; the clear leaves the sprite and its origin as they were. -/
theorem drawTwiceRestores : Obligations.DrawTwiceRestores := by
  refine ⟨fun x y n s t _ h ht hx hy => exec_drw_again x y n s t (exec_drw_inRange x y n s t h ht) h hx hy,
    fun ign x y s haddr hbyte hx hy => ?_⟩
  obtain ⟨r, hr, hdark, hvf, -, -, -, hregs, hindex, -, hmem, -⟩ := exec_cls ign s
  have haddr' : r.dataAddr = s.dataAddr := congrArg BitVec.toNat hindex
  have hreg : RegsKept s r := fun k => reg_eq_of_regsKeptBut 0xF k s r hregs fun _ => hvf
  obtain ⟨t, u, ht, hu, hrest⟩ := exec_drw_setRow_twice x y r (haddr' ▸ haddr)
    (by rw [haddr', hmem, hbyte]) ((hreg x).trans hx) ((hreg y).trans hy) hdark
  exact ⟨r, t, u, hr, ht, hu, hrest⟩

end Sys2Proof.Claims

/-!
Keypad and timers (R120 to R126): the two key skips, the key wait, the three timer operations and the count of cycles:
obligations O13 and O56 to O58.
-/

namespace Sys2Proof.Machine

open Sys2Proof.Claims

/-! ### The two key skips -/

theorem exec_skp (x ign : Nibble) (s : State) (h : (s.reg x).toNat < 16) :
    ∃ t, exec (.skp x ign) s = .next t ∧
      t.pc = (if s.keyDown ⟨(s.reg x).toNat, h⟩ = true then s.pc + 2 + 2 else s.pc + 2) ∧
      JumpFrame (.skp x ign) s t :=
  exec_skip _ s _ ((skpEffect_ok x (s.latchAndAdvance _) h).trans (by rw [Bool.decide_eq_true]; rfl))

theorem exec_sknp (x ign : Nibble) (s : State) (h : (s.reg x).toNat < 16) :
    ∃ t, exec (.sknp x ign) s = .next t ∧
      t.pc = (if s.keyDown ⟨(s.reg x).toNat, h⟩ = false then s.pc + 2 + 2 else s.pc + 2) ∧
      JumpFrame (.sknp x ign) s t :=
  exec_skip _ s _ ((sknpEffect_ok x (s.latchAndAdvance _) h).trans (by rw [Bool.decide_eq_false]; rfl))

/-! ### The key wait -/

theorem State.lowestKey_eq_none (s : State) (h : ∀ k, s.keyDown k = false) : s.lowestKey = none := by
  unfold State.lowestKey
  rw [List.find?_eq_none]
  intro k _
  rw [h k]
  exact Bool.false_ne_true

/-- The lowest pressed key is the only pressed key with none pressed below it. -/
theorem State.lowestKey_eq_some (s : State) (k : Fin 16) (hk : s.keyDown k = true)
    (hlow : ∀ j, j < k → s.keyDown j = false) : s.lowestKey = some k := by
  cases h : s.lowestKey with
  | none => simp [s.lowestKey_none h k] at hk
  | some m =>
    obtain ⟨hm, hmlow⟩ := s.lowestKey_some m h
    have hmk : ¬ m < k := fun hlt => by simp [hlow m hlt] at hm
    have hkm : ¬ k < m := fun hlt => by simp [hmlow k hlt] at hk
    exact congrArg some (le_antisymm (not_lt.1 hkm) (not_lt.1 hmk))

theorem ldVxKEffect_wait (x : Nibble) (s : State) (h : s.lowestKey = none) :
    ldVxKEffect x s = .ok (s.setPc (s.pc - 2)) := by
  simp only [ldVxKEffect, h]

theorem ldVxKEffect_pressed (x : Nibble) (s : State) (k : Fin 16) (h : s.lowestKey = some k) :
    ldVxKEffect x s = .ok (s.setReg x (BitVec.ofNat 8 k.val)) := by
  simp only [ldVxKEffect, h]

/-- The wait takes back the advance of step 2, so `pc` ends at the instruction's own address (R122). -/
theorem exec_ldVxK_wait (x : Nibble) (s : State) (h : s.lowestKey = none) :
    ∃ t, exec (.ldVxK x) s = .next t ∧ t.pc = s.pc ∧ JumpFrame (.ldVxK x) s t := by
  have hback : s.pc + 2 - 2 = s.pc := BitVec.add_sub_cancel s.pc 2
  obtain ⟨t, ht, hpc, hframe⟩ := exec_jump (.ldVxK x) s (s.pc + 2 - 2) (ldVxKEffect_wait x (s.latchAndAdvance _) h)
  exact ⟨t, ht, hpc.trans hback, hframe⟩

theorem exec_ldVxK_pressed (x : Nibble) (s : State) (k : Fin 16) (h : s.lowestKey = some k) :
    ∃ t, exec (.ldVxK x) s = .next t ∧ (t.reg x).toNat = k.val ∧ RegsKeptBut x s t ∧
      RegisterFrame (.ldVxK x) s t := by
  obtain ⟨t, ht, hreg, hrest⟩ :=
    exec_setReg (.ldVxK x) s x (BitVec.ofNat 8 k.val) (ldVxKEffect_pressed x (s.latchAndAdvance _) k h)
  have hbyte : k.val < 2 ^ 8 := k.isLt.trans (by decide)
  exact ⟨t, ht, by rw [hreg, BitVec.toNat_ofNat, Nat.mod_eq_of_lt hbyte], hrest⟩

/-! ### A cycle that sets a timer -/

/-- The frame of an operation that sets a timer: the timers apart, which its statement describes one by one, nothing
changes. -/
def TimerFrame (i : Instr) (s t : State) : Prop :=
  Completed i s t ∧ t.pc = s.pc + 2 ∧ RegsKept s t ∧ t.index = s.index ∧ StackKept s t ∧ MemKept s t ∧
  VideoKept s t ∧ t.rndDraws = s.rndDraws

/-- A cycle whose execute step leaves `d` and `v` in the timers and moves nothing else completes with each of them one
lower, within the frame of a timer operation (R75). -/
theorem exec_setTimers (i : Instr) (s : State) (d v : Byte)
    (h : effectOf i (s.latchAndAdvance (encode i)) = .ok { s.latchAndAdvance (encode i) with dt := d, st := v }) :
    ∃ t, exec i s = .next t ∧ t.dt.toNat = d.toNat - 1 ∧ t.st.toNat = v.toNat - 1 ∧ TimerFrame i s t := by
  have hcycle := (exec_eq i s).trans (s.runCycle_ok _ _ _ h)
  exact ⟨_, hcycle, tick_toNat d, tick_toNat v, ⟨rfl, rfl, rfl, rfl, rfl⟩, rfl, fun _ => rfl, rfl, ⟨rfl, rfl⟩,
    fun _ => rfl, fun _ _ => rfl, rfl⟩

/-! ### A step that sets no timer -/

theorem dtLeftBy_of_op_ne (i : Instr) (s : State) (h : i.op ≠ .ldDtVx) : dtLeftBy i s = s.dt := by
  cases i
  case ldDtVx => exact absurd rfl h
  all_goals rfl

theorem stLeftBy_of_op_ne (i : Instr) (s : State) (h : i.op ≠ .ldStVx) : stLeftBy i s = s.st := by
  cases i
  case ldStVx => exact absurd rfl h
  all_goals rfl

/-- A completing step that sets no timer lowers both by one, whatever the host wrote to the keypad before it. -/
theorem step_timersTicked (s t : State) (w : Word) (hs : s.fault = none) (hw : s.fetch = .ok w)
    (hop : (decodeWord w).op ∉ [Op.ldDtVx, .ldStVx]) (h : step s = .next t) (ht : t.fault = none) :
    TimersTicked s t := by
  simp only [List.mem_cons, List.not_mem_nil, or_false, not_or] at hop
  obtain ⟨hnoDt, hnoSt⟩ := hop
  rw [step_fetched s w hs hw] at h
  have hleft := exec_timers (decodeWord w) s.takeKeys t h ht
  rw [dtLeftBy_of_op_ne _ _ hnoDt, stLeftBy_of_op_ne _ _ hnoSt, s.takeKeys_dt, s.takeKeys_st] at hleft
  exact hleft

end Sys2Proof.Machine

namespace Sys2Proof.Claims

open Sys2Proof.Machine

/-- Settles O13: by induction on the number of steps, each of which lowers both timers by one. -/
theorem timersCountCycles : Obligations.TimersCountCycles := by
  intro n f hrun
  induction n with
  | zero => exact ⟨rfl, rfl⟩
  | succ n ih =>
    obtain ⟨hdt, hst⟩ := ih fun k hk => hrun k (Nat.lt_succ_of_lt hk)
    obtain ⟨hstep, hfault, hfault', w, hfetch, hop⟩ := hrun n n.lt_succ_self
    obtain ⟨hdt', hst'⟩ := step_timersTicked (f n) (f (n + 1)) w hfault hfetch hop hstep hfault'
    rw [hdt', hst', hdt, hst]
    exact ⟨Nat.sub_sub _ n 1, Nat.sub_sub _ n 1⟩

/-- Settles O56: a value up to 15 is the number of the key whose flag the skip tests; above 15 the execute step
faults. -/
theorem skipOnKey : Obligations.SkipOnKey := by
  refine ⟨selects_of_mem_opcodeMap (op := .skp) (by decide), selects_of_mem_opcodeMap (op := .sknp) (by decide),
    fun x ign s k hk => ?_, fun x ign s h => ⟨?_, ?_⟩⟩
  · have hlt : (s.reg x).toNat < 16 := hk ▸ k.isLt
    obtain rfl : k = ⟨(s.reg x).toNat, hlt⟩ := Fin.ext hk.symm
    exact ⟨exec_skp x ign s hlt, exec_sknp x ign s hlt⟩
  · exact faults_of_effectOf _ s _ (skpEffect_fault x (s.latchAndAdvance _) h)
  · exact faults_of_effectOf _ s _ (sknpEffect_fault x (s.latchAndAdvance _) h)

/-- Settles O57: the wait goes on while there is no lowest pressed key, and ends with its number once there is one. -/
theorem keyWait : Obligations.KeyWait :=
  ⟨selects_of_mem_opcodeMap (op := .ldVxK) (by decide),
    fun x s h => exec_ldVxK_wait x s (s.lowestKey_eq_none h),
    fun x s k hk hlow => exec_ldVxK_pressed x s k (s.lowestKey_eq_some k hk hlow)⟩

/-- Settles O58: `Fx07` is one register write; `Fx15` and `Fx18` leave `V[x]` in one timer and the old value in the
other, and the tick follows. -/
theorem timerAccess : Obligations.TimerAccess := by
  refine ⟨selects_of_mem_opcodeMap (op := .ldVxDt) (by decide), selects_of_mem_opcodeMap (op := .ldDtVx) (by decide),
    selects_of_mem_opcodeMap (op := .ldStVx) (by decide), fun x s => ⟨exec_setReg (.ldVxDt x) s x s.dt rfl,
      exec_setTimers (.ldDtVx x) s (s.reg x) s.st rfl, ?_⟩⟩
  obtain ⟨t, ht, hdt, hst, hframe⟩ := exec_setTimers (.ldStVx x) s s.dt (s.reg x) rfl
  exact ⟨t, ht, hst, hdt, hframe⟩

end Sys2Proof.Claims

/-!
Exceptions (R131 to R133, R143): which instruction faults and when, what a faulted cycle commits, the halted core, and the
presentation port: obligations O9 to O11 and O30.
-/

namespace Sys2Proof.Machine

open Sys2Proof.Claims

/-! ### The fault table -/

/-- The latch and the advance before the execute step touch nothing that the fault table reads. -/
@[simp] theorem faultOf_latchAndAdvance (i : Instr) (s : State) (w : Word) :
    faultOf i (s.latchAndAdvance w) = faultOf i s := by
  cases i <;> rfl

/-- A step that faults agrees with an entry of the table that names the same fault. -/
theorem error_iff_of_error {o : Except Fault State} {entry : Option Fault} {f : Fault} (ho : o = .error f)
    (hentry : entry = some f) (c : Fault) : o = .error c ↔ entry = some c := by
  rw [ho, hentry, Except.error.injEq, Option.some.injEq]

/-- A step that completes agrees with an entry of the table that names no fault. -/
theorem error_iff_of_ok {o : Except Fault State} {entry : Option Fault} {u : State} (ho : o = .ok u)
    (hentry : entry = none) (c : Fault) : o = .error c ↔ entry = some c := by
  rw [ho, hentry]
  exact iff_of_false nofun nofun

/-- `MemWrite` of `k + 1` bytes faults by its two checks in their order (R34). -/
theorem State.memWrite_error_iff (s : State) (addr k : Nat) (bytes : List Byte) (hlength : bytes.length = k + 1)
    (hk : k < 16) (c : Fault) :
    s.memWrite addr bytes = .error c ↔
      (if 0xFFF < addr + k then some Fault.memWriteOutOfRange
        else if addr ≤ 0x04F then some .glyphRomWrite else none) = some c := by
  by_cases hrange : 0xFFF < addr + k
  · exact error_iff_of_error (s.memWrite_outOfRange addr bytes (by omega)) (if_pos hrange) c
  · rw [if_neg hrange]
    by_cases hrom : addr ≤ 0x04F
    · exact error_iff_of_error (s.memWrite_glyphRom addr bytes hrom (by omega)) (if_pos hrom) c
    · exact error_iff_of_ok (s.memWrite_ok addr bytes (by omega) (by omega)) (if_neg hrom) c

/-- An execute step faults exactly as the table of R131 says: each condition of the table is the guard of one execute
step, and every other execute step completes. -/
theorem effectOf_error_iff (i : Instr) (s : State) (c : Fault) : effectOf i s = .error c ↔ faultOf i s = some c := by
  cases i
  case call nnn =>
    by_cases h : s.sp.val = 16
    · exact error_iff_of_error (callEffect_fault nnn s h) (if_pos h) c
    · exact error_iff_of_ok (callEffect_ok nnn s (by have := s.sp.isLt; omega)) (if_neg h) c
  case ret =>
    by_cases h : s.sp.val = 0
    · exact error_iff_of_error (retEffect_fault s h) (if_pos h) c
    · exact error_iff_of_ok (retEffect_ok s h) (if_neg h) c
  case drw x y n =>
    by_cases h : 0 < n.toNat ∧ 0xFFF < s.dataAddr + n.toNat - 1
    · exact error_iff_of_error (drwEffect_fault x y n s h.1 h.2) (if_pos h) c
    · exact error_iff_of_ok (drwEffect_ok x y n s (by omega)) (if_neg h) c
  case ldVxImem x =>
    by_cases h : 0xFFF < s.dataAddr + x.toNat
    · exact error_iff_of_error (ldVxImemEffect_fault x s h) (if_pos h) c
    · exact error_iff_of_ok (ldVxImemEffect_ok x s (not_lt.1 h)) (if_neg h) c
  case ldBVx x => exact s.memWrite_error_iff s.dataAddr 2 (decimalDigits (s.reg x)) rfl (by decide) c
  case ldImemVx x =>
    exact s.memWrite_error_iff s.dataAddr x.toNat (s.regsUpTo x) (s.regsUpTo_length x) x.isLt c
  case skp x _ =>
    by_cases h : 0xF < (s.reg x).toNat
    · exact error_iff_of_error (skpEffect_fault x s h) (if_pos h) c
    · exact error_iff_of_ok (skpEffect_ok x s (by omega)) (if_neg h) c
  case sknp x _ =>
    by_cases h : 0xF < (s.reg x).toNat
    · exact error_iff_of_error (sknpEffect_fault x s h) (if_pos h) c
    · exact error_iff_of_ok (sknpEffect_ok x s (by omega)) (if_neg h) c
  case ldVxK x =>
    rcases ldVxKEffect_cases x s with ⟨_, h⟩ | ⟨_, _, h⟩
    · exact error_iff_of_ok h rfl c
    · exact error_iff_of_ok h rfl c
  all_goals exact error_iff_of_ok rfl rfl c

/-- After `exec` the latch holds the table's fault with the instruction's address and word, or is empty (R131, R132). -/
theorem exec_fault (i : Instr) (s t : State) (hs : s.fault = none) (h : exec i s = .next t) :
    t.fault = (faultOf i s).map fun c => { code := c, pc := s.pc, opcode := some (encode i) } := by
  rw [← faultOf_latchAndAdvance i s (encode i)]
  rcases exec_cases i s t h with ⟨u, hu, rfl⟩ | ⟨c, hc, rfl⟩
  · have hnone : faultOf i (s.latchAndAdvance (encode i)) = none :=
      Option.eq_none_iff_forall_ne_some.2 fun c hc => nomatch hu.symm.trans ((effectOf_error_iff i _ c).2 hc)
    obtain ⟨_, hfault, _⟩ := effectOf_frame i _ u hu
    rw [hnone]
    exact hfault.trans hs
  · rw [(effectOf_error_iff i _ c).1 hc]
    rfl

/-! ### A cycle that faults, a core that is halted -/

/-- A cycle that ends faulted latched the fetch's fault, or the fetched word's instruction latched another code; neither
changes anything else (R132). -/
theorem cycle_faulted_inv (s t : State) (r : FaultRecord) (hs : s.fault = none) (h : cycle s = .next t)
    (hr : t.fault = some r) :
    (0xFFE < s.pc.toNat ∧ t = s.raise .fetchOutOfRange none) ∨
    (∃ c w, s.fetch = .ok w ∧ c ≠ .fetchOutOfRange ∧ t = s.raise c (some w)) := by
  by_cases hpc : 0xFFE < s.pc.toNat
  · rw [cycle_fetchFault s _ hs (s.fetch_fault hpc)] at h
    cases h
    exact .inl ⟨hpc, rfl⟩
  · have hfetch := s.fetch_ok (not_lt.1 hpc)
    rw [cycle_fetched s _ hs hfetch] at h
    rcases exec_cases _ s t h with ⟨u, hu, rfl⟩ | ⟨c, hc, rfl⟩
    · obtain ⟨_, hfault, _⟩ := effectOf_frame _ _ u hu
      exact nomatch hr.symm.trans (hfault.trans hs)
    · rw [encode_decodeWord]
      exact .inr ⟨c, _, hfetch, fun e => effectOf_ne_fetchFault _ _ (e ▸ hc), rfl⟩

/-- A step of a halted core takes the host's next keypad write and does nothing else (R133, log entry 2). -/
theorem step_halted (s : State) (h : s.fault ≠ none) : step s = .next s.takeKeys :=
  cycle_halted s.takeKeys (s.takeKeys_fault.symm ▸ h)

theorem State.load_fault (s t : State) (image : List Byte) (h : s.load image = .ok t) : t.fault = s.fault := by
  obtain ⟨_, _, rfl⟩ := s.load_inv t image h
  rfl

/-- Every move of the host but reset leaves the latch of a halted core as it is (R133). -/
theorem applyMove_keepsLatch (m : Move) (s : State) (h : s.fault ≠ none) (hm : m ≠ .reset) :
    (applyMove m s).fault = s.fault := by
  cases m with
  | reset => exact absurd rfl hm
  | keys k => rfl
  | load image =>
    simp only [applyMove]
    split
    · next t ht => exact s.load_fault t image ht
    · rfl
  | advance =>
    simp only [applyMove, step_halted s h]
    exact s.takeKeys_fault

end Sys2Proof.Machine

namespace Sys2Proof.Claims

open Sys2Proof.Machine

/-- Settles O10: either way a cycle faults, the next state is the start state with the record latched. -/
theorem faultCommitsNothing : Obligations.FaultCommitsNothing := by
  intro s t r hs h hr
  rcases cycle_faulted_inv s t r hs h hr with ⟨hpc, rfl⟩ | ⟨c, w, hfetch, _, rfl⟩
  · cases hr
    exact ⟨rfl, rfl, .inl ⟨s.fetch_fault hpc, rfl, rfl⟩⟩
  · cases hr
    exact ⟨rfl, rfl, .inr ⟨w, hfetch, rfl⟩⟩

/-- Settles O11: the table's conditions are the guards of the execute steps, and the fetch's code is the fetch's alone. -/
theorem faultsExactlyWhenTabled : Obligations.FaultsExactlyWhenTabled := by
  refine ⟨exec_fault, fun s t hs h => ⟨?_, fun hpc => ?_⟩, rfl⟩
  · rintro ⟨r, hr, hcode⟩
    rcases cycle_faulted_inv s t r hs h hr with ⟨hpc, _⟩ | ⟨c, w, _, hc, rfl⟩
    · exact hpc
    · cases hr
      exact absurd hcode hc
  · rw [cycle_fetchFault s _ hs (s.fetch_fault hpc)] at h
    cases h
    exact ⟨_, rfl, rfl⟩

/-- Settles O9: a cycle and a step by the halted core's equations, the host's other moves by what each writes. -/
theorem haltedCoreUnchanged : Obligations.HaltedCoreUnchanged :=
  fun s h => ⟨cycle_halted s h, step_halted s h, rfl, fun m hm => applyMove_keepsLatch m s h hm⟩

/-- Settles O30: the column and the row of a linear index are its remainder and its quotient by 64. -/
theorem presentationShowsCells : Obligations.PresentationShowsCells := by
  intro s width px py
  have hcol : (64 * py.val + px.val) % 64 = px.val := by omega
  have hrow : (64 * py.val + px.val) / 64 = py.val := by omega
  simp only [State.presentCell, hcol, hrow]

end Sys2Proof.Claims

/-!
Reset, program load and quiescence (R150 to R157): obligations O24 to O27 and O32.
-/

namespace Sys2Proof.Machine

open Sys2Proof.Claims

/-! ### Program load -/

/-- An image of 1 to 3584 bytes is written at 0x200 (R154). -/
theorem State.load_ok (s : State) (image : List Byte) (h0 : 0 < image.length) (h : image.length ≤ 3584) :
    s.load image = .ok { s with mem := s.mem.writeBytes 0x200 image } := by
  unfold State.load
  rw [if_neg (by omega), if_neg (by omega)]

theorem State.load_empty (s : State) (image : List Byte) (h : image.length = 0) :
    s.load image = .error .emptyImage := by
  unfold State.load
  rw [if_pos h]

theorem State.load_tooLarge (s : State) (image : List Byte) (h : 3584 < image.length) :
    s.load image = .error .imageTooLarge := by
  unfold State.load
  rw [if_neg (by omega), if_pos h]

/-- A rejected load is no move (R155). -/
theorem applyMove_load_error (s : State) (image : List Byte) (e : LoadError) (h : s.load image = .error e) :
    applyMove (.load image) s = s := by
  simp only [applyMove, h]

/-! ### The same run of writes, twice -/

/-- After a run of writes the same run again changes no byte: in the run it writes what stands there. -/
theorem Memory.writeBytes_twice_read (m : Memory) (a c : Nat) (bytes : List Byte) :
    ((m.writeBytes a bytes).writeBytes a bytes).read c = (m.writeBytes a bytes).read c := by
  by_cases hc : c < a ∨ a + bytes.length ≤ c
  · exact Memory.writeBytes_read_outside bytes _ a c hc
  · have hlow : a ≤ c := by omega
    have hrun : c - a < bytes.length := by omega
    simp only [Memory.writeBytes_read, if_pos hlow, List.getD_eq_getElem _ _ hrun]

/-- In canonical form the memory itself is the same, since canonical memories that read alike are equal. -/
theorem Memory.writeBytes_twice (m : Memory) (a : Nat) (bytes : List Byte) (h : m.wf = true) :
    (m.writeBytes a bytes).writeBytes a bytes = m.writeBytes a bytes := by
  have hwf := Memory.writeBytes_wf bytes m a h
  exact Memory.ext_of_wf _ _ (Memory.writeBytes_wf bytes _ a hwf) hwf fun c => m.writeBytes_twice_read a c bytes

/-- What an address reads as depends on what the RAM reads as there, not on how its list is written. -/
theorem State.byte_congr_read (s t : State) (a : Nat) (hm : t.mem.read a = s.mem.read a) (hp : t.params = s.params) :
    t.byte a = s.byte a := by
  unfold State.byte
  rw [hm, hp]

/-! ### The self-jump -/

/-- A cycle that jumps to its own address with both timers at 0 latches its word and changes nothing else: the jump
takes back the advance of `pc`, and a timer at 0 stays there (R72, R75, R82). -/
theorem cycle_selfJump (s : State) (nnn : Addr12) (hfault : s.fault = none) (hfetch : s.fetch = .ok (encode (.jp nnn)))
    (hpc : s.pc.toNat = nnn.toNat) (hdt : s.dt = 0) (hst : s.st = 0) :
    cycle s = .next { s with opcode := encode (.jp nnn) } := by
  have hself : target nnn = s.pc := BitVec.eq_of_toNat_eq ((target_toNat nnn).trans hpc.symm)
  have hdt' : tick s.dt = s.dt := by rw [hdt]; rfl
  have hst' : tick s.st = s.st := by rw [hst]; rfl
  calc cycle s
      = exec (.jp nnn) s := by rw [cycle_fetched s _ hfault hfetch, decodeWord_encode (.jp nnn) rfl]
    _ = .next ((s.latchAndAdvance (encode (.jp nnn))).setPc (target nnn)).tickTimers :=
        (exec_eq _ s).trans (s.runCycle_ok _ _ _ rfl)
    _ = .next { s with opcode := encode (.jp nnn), pc := target nnn, dt := tick s.dt, st := tick s.st } := rfl
    _ = .next { s with opcode := encode (.jp nnn) } := by rw [hself, hdt', hst']

end Sys2Proof.Machine

namespace Sys2Proof.Claims

open Sys2Proof.Machine

/-- Settles O25: each address of the run reads as the image's byte, every other as before. -/
theorem loadCopiesImage : Obligations.LoadCopiesImage := by
  intro s image h0 h
  exact ⟨_, s.load_ok image h0 h, fun k hk => s.byte_writeBytes_inside 0x200 k image (by decide) hk,
    fun a ha => s.byte_writeBytes_outside 0x200 a image (by decide) ha, rfl⟩

/-- Settles O27: a load is a run of writes, and the same run twice is the run once. -/
theorem loadTwiceIsLoadOnce : Obligations.LoadTwiceIsLoadOnce := by
  intro s t image h
  obtain ⟨h0, hlength, rfl⟩ := s.load_inv t image h
  refine ⟨_, State.load_ok _ image h0 hlength, fun a => ?_, fun hwf => ?_⟩
  · exact State.byte_congr_read _ _ a (s.mem.writeBytes_twice_read 0x200 a image) rfl
  · exact congrArg (fun m => { s with mem := m }) (s.mem.writeBytes_twice 0x200 image hwf)

/-- Settles O32: the first jump latches its word; from then on, whatever the keypad, the word to latch is the one
latched. -/
theorem selfJumpBecomesQuiescent : Obligations.SelfJumpBecomesQuiescent := by
  intro s nnn hfault hfetch hpc hdt hst
  refine ⟨_, cycle_selfJump s nnn hfault hfetch hpc hdt hst, hfault, fun k => ?_⟩
  exact cycle_selfJump (State.setKeypad { s with opcode := encode (.jp nnn) } k) nnn hfault hfetch hpc hdt hst

/-- Settles O24: the two inputs that reset leaves standing are not Machine State (R28). -/
theorem resetFromAnyState : Obligations.ResetFromAnyState :=
  fun s => ⟨State.resetWith_values s.params, State.resetWith_values s.params⟩

/-- Settles O26: the two length checks come before the copy, and 3584 bytes pass both. -/
theorem loadRejectsBadImage : Obligations.LoadRejectsBadImage := by
  refine fun s image => ⟨fun h => ?_, fun h => ?_, fun h => ⟨_, s.load_ok image (by omega) (by omega)⟩⟩
  · have hempty := s.load_empty image h
    exact ⟨hempty, applyMove_load_error s image _ hempty⟩
  · have hlarge := s.load_tooLarge image h
    exact ⟨hlarge, applyMove_load_error s image _ hlarge⟩

end Sys2Proof.Claims
